-- ==== Sys2Proof/Word.lean ====
section
/-! DEFINITION. The two word types of the block: a byte and a 32-bit value (spec/00_scope.md R10, R13).
Nothing in the block is signed (R10), and an f32 is only ever its 32-bit pattern (R13). -/

namespace Sys2Proof

/-- A byte, 8 bits (R10). -/
abbrev Byte := BitVec 8

/-- A 32-bit value: an f32 carried as its bit pattern (R13), or a counter value (R28). -/
abbrev Word32 := BitVec 32

end Sys2Proof
end

