-- ==== Sys2Proof/Config.lean ====
section
/-! DEFINITION. The parameters of spec/00_scope.md R8, each at the value the spec gives this hardware,
and the one the spec leaves OPEN (CMD_LEN_MAX), which has no value here. -/

namespace Sys2Proof

/-- The byte order of the field len_flags (R9): little-endian on this hardware, big-endian the superseded order
(R64). A build-time choice, never switched at run time (R43). -/
inductive LenOrder where
  | le
  | be
deriving DecidableEq, Repr

namespace Config

/-- SYNC0 (R8, R61). -/
abbrev sync0 : Byte := 0x55#8

/-- SYNC1 (R8, R61). -/
abbrev sync1 : Byte := 0xAA#8

/-- HDR_LEN, the bytes before the payload (R8). -/
abbrev hdrLen : Nat := 9

/-- MIN_FRAME, the length of a frame with an empty payload (R8). -/
abbrev minFrame : Nat := 10

/-- The longest payload a 13-bit length field names (R8, R78). -/
abbrev maxPayload : Nat := 8191

/-- MAX_FRAME (R8, R62). -/
abbrev maxFrame : Nat := 8201

/-- LEN_ORDER of this hardware (R9). Log entry 10. -/
abbrev lenOrder : LenOrder := .le

/-- RX_CAP (R8, R22). Log entry 10. -/
abbrev rxCap : Nat := 8201

/-- OUTQ_DEPTH (R8, R25). Log entry 10. -/
abbrev outqDepth : Nat := 10

/-- TXQ_DEPTH (R8, R26). Log entry 10. -/
abbrev txqDepth : Nat := 10

/-- How far CMD_LEN_MAX exceeds 2: OPEN in the spec (R8, R78), so it has no body and no proof can use a value of it.
Log entry 11. -/
opaque cmdLenSlack : Nat

/-- CMD_LEN_MAX, the most cmd_type bytes the TX command port carries: "OPEN, any value ≥ 2" (R8). -/
def cmdLenMax : Nat := cmdLenSlack + 2

end Config

end Sys2Proof
end

