-- ==== Sys2Proof/Syntax.lean ====
section
/-! DEFINITION. The records that travel between the units of the block (Command, Event, port records) and Instr, one
constructor for each row of spec/opcode_table.json: the six message kinds, the five functions and the eight
transactions. -/

namespace Sys2Proof

/-- A Command (R30). An absent payload is the empty one (D8); the status is the raw 3-bit code (D7). -/
structure Command where
  cmdType : List Byte
  status  : Option (BitVec 3)
  payload : List Byte
deriving DecidableEq, Repr

/-- The fields of the record at the port cmd_in (R78): `cmd_len` and `plen` are the lengths of the two sequences. -/
structure CommandRecord where
  cmdType       : List Byte
  statusPresent : Bool
  status        : BitVec 3
  payload       : List Byte
deriving DecidableEq, Repr

/-- The Command a record presents (R30, R78). With status_present = 0 its response_status is None, whatever the three
status bits are, on which R78 sets no bound. DESIGN CHOICE, log entry 23. -/
def CommandRecord.command (r : CommandRecord) : Command :=
  ⟨r.cmdType, if r.statusPresent then some r.status else none, r.payload⟩

/-- ResponseStatus, the closed enumeration of R67. -/
inductive ResponseStatus where
  | unused
  | ok
  | okWithData
  | error
  | reserved
deriving DecidableEq, Repr

/-- ErrorCause, the closed enumeration of R68. -/
inductive ErrorCause where
  | success
  | checksumError
  | invalidArgument
  | operationFailed
  | configNotFound
  | internalError
  | stateMismatch
  | noValidData
  | unspecifiedError
deriving DecidableEq, Repr

/-- A ProtocolEvent (R31, R74): the two requests of the client and the four events of the device. -/
inductive Event where
  | setPositionAck
  | positionReached (x y : Word32)
  | getPositionResponse (x y : Word32) (flag : Byte)
  | errorResponse (cause : ErrorCause)
  | setPositionRequest (x y : Word32)
  | getPositionRequest
deriving DecidableEq, Repr

/-- The fields of the 83-bit record at the ports ev_out and req_in (R76, R77). Its bit layout is
`PortRecord.bits` (Machine/Operands.lean). -/
structure PortRecord where
  kind  : BitVec 3
  x     : Word32
  y     : Word32
  flag  : Byte
  cause : Byte
deriving DecidableEq, Repr

/-- The two mapping errors of R79 and R201. -/
inductive MapError where
  | invalidCommandType
  | invalidPayload
deriving DecidableEq, Repr

/-- The four reserved bytes of a frame, offsets 3 to 6 (R60, R66): read value ignored, but inside the checksum. -/
structure Reserved where
  b3 : Byte
  b4 : Byte
  b5 : Byte
  b6 : Byte
deriving DecidableEq, Repr

/-- What a transmitter writes in the reserved bytes (R66). -/
def Reserved.zero : Reserved := ⟨0#8, 0#8, 0#8, 0#8⟩

/-- One constructor for each row of spec/opcode_table.json.
A device message carries every bit of its frame that the row leaves open (reserved bytes, payload fields, and for
ErrorResponse the cmd_type and the RAW cause byte); a request carries its fields only, since the block writes its
frame. -/
inductive Instr where
  /-- SetPositionRequest (R152), client to device. -/
  | setPositionRequest (x y : Word32)
  /-- GetPositionRequest (R153), client to device. -/
  | getPositionRequest
  /-- SetPositionAck (R144), device to client. -/
  | setPositionAck (rsv : Reserved)
  /-- PositionReached (R144), device to client. -/
  | positionReached (rsv : Reserved) (x y : Word32)
  /-- GetPositionResponse (R145), device to client. -/
  | getPositionResponse (rsv : Reserved) (x y : Word32) (flag : Byte)
  /-- ErrorResponse (R143), device to client, any cmd_type. -/
  | errorResponse (cmd : Byte) (rsv : Reserved) (cause : Byte)
  /-- CHECKSUM (R90). -/
  | checksum (bs : List Byte)
  /-- DECODE_PASS (R101). -/
  | decodePass
  /-- ENCODE (R130). -/
  | encode (c : Command)
  /-- TO_EVENT (R140). -/
  | toEvent (c : Command)
  /-- TO_COMMAND (R151), on a request record. -/
  | toCommand (r : PortRecord)
  /-- RX_PUSH (R170). -/
  | rxPush (b : Byte)
  /-- OUT_POP (R171). -/
  | outPop
  /-- TX_SUBMIT_CMD (R172). -/
  | txSubmitCmd (r : CommandRecord)
  /-- TX_SUBMIT_REQ (R173). -/
  | txSubmitReq (r : PortRecord)
  /-- TX_STEP (R174). -/
  | txStep
  /-- STAT_READ (R175). -/
  | statRead (n : BitVec 3)
  /-- RESET (R220). -/
  | reset
  /-- RX_PUSH_SEQ (R81), the one pseudo-transaction. -/
  | rxPushSeq (bs : List Byte)
deriving DecidableEq, Repr

end Sys2Proof
end

