-- ==== Sys2Proof/Machine/Flags.lean ====
section
/-! DEFINITION. The block has no condition flags (spec/10_state.md R33); its only "flags" are the status bits of
len_flags. This file holds the field len_flags (spec/30_encoding.md R63 to R65) and the status, cause and result
codes (R67, R68, R79). -/

namespace Sys2Proof.Machine

/-- len_flags from the bytes at frame offsets 7 and 8: `{b8, b7}` under LE (R63), `{b7, b8}` under BE (R64). -/
def lenFlags (o : LenOrder) (b7 b8 : Byte) : BitVec 16 :=
  match o with
  | .le => b8 ++ b7
  | .be => b7 ++ b8

/-- PayloadLen = len_flags[12:0] (R63). -/
def payloadLen (lf : BitVec 16) : Nat := (lf.extractLsb' 0 13).toNat

/-- Status = len_flags[15:13] (R63). -/
def statusBits (lf : BitVec 16) : BitVec 3 := lf.extractLsb' 13 3

/-- The field len_flags of a status code and a payload length, the length masked to 13 bits (R65 with status 0;
a device's frame carries its status in bits 15 to 13, R60). -/
def lenFlagsOf (st : BitVec 3) (plen : Nat) : BitVec 16 := st ++ BitVec.ofNat 13 plen

/-- The bytes at frame offsets 7 and 8, in that order (R65): low byte first under LE, swapped under BE. -/
def lenFlagsBytes (o : LenOrder) (lf : BitVec 16) : List Byte :=
  match o with
  | .le => [lf.extractLsb' 0 8, lf.extractLsb' 8 8]
  | .be => [lf.extractLsb' 8 8, lf.extractLsb' 0 8]

/-- NormStatus (R67): the codes 4 to 7 are one value after normalisation. -/
def normStatus (code : BitVec 3) : ResponseStatus :=
  if code = 0#3 then .unused
  else if code = 1#3 then .ok
  else if code = 2#3 then .okWithData
  else if code = 3#3 then .error
  else .reserved

/-- NormCause as a name (R68): every byte above 0x07 is UnspecifiedError. -/
def normCause (b : Byte) : ErrorCause :=
  if b = 0#8 then .success
  else if b = 1#8 then .checksumError
  else if b = 2#8 then .invalidArgument
  else if b = 3#8 then .operationFailed
  else if b = 4#8 then .configNotFound
  else if b = 5#8 then .internalError
  else if b = 6#8 then .stateMismatch
  else if b = 7#8 then .noValidData
  else .unspecifiedError

/-- The code an ErrorCause carries in the Event record (R68). -/
def causeCode : ErrorCause → Byte
  | .success => 0x00#8
  | .checksumError => 0x01#8
  | .invalidArgument => 0x02#8
  | .operationFailed => 0x03#8
  | .configNotFound => 0x04#8
  | .internalError => 0x05#8
  | .stateMismatch => 0x06#8
  | .noValidData => 0x07#8
  | .unspecifiedError => 0xFF#8

/-- The result code of a mapping error (R79); the code 0 is OK. -/
def errorCode : MapError → Nat
  | .invalidCommandType => 1
  | .invalidPayload => 2

end Sys2Proof.Machine
end

