-- ==== Sys2Proof/Machine/Operands.lean ====
section
/-! DEFINITION. Byte sequences and records as operands: slices (spec/00_scope.md R11), the checksum
(spec/40_checksum.md R90), the 32-bit fields (R13), whole frames (spec/30_encoding.md R60) and the 83-bit port record
(R75 to R77). -/

namespace Sys2Proof.Machine

/-- `s[i:j]`, the bytes at indices i to j-1 (R11). -/
def slice (s : List Byte) (i j : Nat) : List Byte := (s.take j).drop i

/-- `s[i]` (R11); only read where the index is inside. -/
def byteAt (s : List Byte) (i : Nat) : Byte := s.getD i 0#8

/-- Checksum (R90): the exclusive-or fold, left to right, seed 0. -/
def checksum (s : List Byte) : Byte := s.foldl (fun acc b => acc ^^^ b) 0#8

/-- The 32-bit value whose least significant byte comes first (R13). -/
def leWord (b0 b1 b2 b3 : Byte) : Word32 := b3 ++ b2 ++ b1 ++ b0

/-- `le_u32(s, i)` (R13). -/
def leU32 (s : List Byte) (i : Nat) : Word32 :=
  leWord (byteAt s i) (byteAt s (i + 1)) (byteAt s (i + 2)) (byteAt s (i + 3))

/-- `le_bytes32(v)` (R13). -/
def leBytes32 (v : Word32) : List Byte :=
  [v.extractLsb' 0 8, v.extractLsb' 8 8, v.extractLsb' 16 8, v.extractLsb' 24 8]

/-- The reserved bytes in wire order (R60). -/
def reservedBytes (r : Reserved) : List Byte := [r.b3, r.b4, r.b5, r.b6]

/-- The bytes the checksum covers, offsets 2 to 8 + len (R91): cmd_type, reserved, len_flags, payload. -/
def frameBody (o : LenOrder) (cmd : Byte) (rsv : Reserved) (st : BitVec 3) (payload : List Byte) : List Byte :=
  cmd :: (reservedBytes rsv ++ (lenFlagsBytes o (lenFlagsOf st payload.length) ++ payload))

/-- A whole frame (R60): sync, body, checksum of the body. -/
def wireFrame (o : LenOrder) (cmd : Byte) (rsv : Reserved) (st : BitVec 3) (payload : List Byte) : List Byte :=
  Config.sync0 :: Config.sync1 ::
    (frameBody o cmd rsv st payload ++ [checksum (frameBody o cmd rsv st payload)])

/-- The frame of a SetPositionRequest (R71, R152): status 0, reserved bytes 0. -/
def setPositionRequestFrame (x y : Word32) : List Byte :=
  wireFrame Config.lenOrder 0x31#8 Reserved.zero 0#3 (leBytes32 x ++ leBytes32 y)

/-- The frame of a GetPositionRequest (R71, R153). -/
def getPositionRequestFrame : List Byte := wireFrame Config.lenOrder 0x33#8 Reserved.zero 0#3 []

/-- The frame of a SetPositionAck (R71, R144). -/
def setPositionAckFrame (rsv : Reserved) : List Byte := wireFrame Config.lenOrder 0x91#8 rsv 1#3 []

/-- The frame of a PositionReached (R71, R144). -/
def positionReachedFrame (rsv : Reserved) (x y : Word32) : List Byte :=
  wireFrame Config.lenOrder 0x91#8 rsv 2#3 (leBytes32 x ++ leBytes32 y)

/-- The frame of a GetPositionResponse (R71, R145, R149). -/
def getPositionResponseFrame (rsv : Reserved) (x y : Word32) (flag : Byte) : List Byte :=
  wireFrame Config.lenOrder 0x93#8 rsv 2#3 (leBytes32 x ++ (leBytes32 y ++ [flag]))

/-- The frame of an ErrorResponse (R71, R143), with the raw cause byte as its payload. -/
def errorResponseFrame (cmd : Byte) (rsv : Reserved) (cause : Byte) : List Byte :=
  wireFrame Config.lenOrder cmd rsv 3#3 [cause]

/-- The port record with kind 0 and every field 0: OUT_POP on an empty OUTQ (R75, R171). -/
def emptyRecord : PortRecord := ⟨0#3, 0#32, 0#32, 0#8, 0#8⟩

/-- The Event record at the ports (R75, R76): a field the kind does not carry is 0. -/
def eventRecord : Event → PortRecord
  | .setPositionAck => ⟨1#3, 0#32, 0#32, 0#8, 0#8⟩
  | .positionReached x y => ⟨2#3, x, y, 0#8, 0#8⟩
  | .getPositionResponse x y flag => ⟨3#3, x, y, flag, 0#8⟩
  | .errorResponse cause => ⟨4#3, 0#32, 0#32, 0#8, causeCode cause⟩
  | .setPositionRequest x y => ⟨5#3, x, y, 0#8, 0#8⟩
  | .getPositionRequest => ⟨6#3, 0#32, 0#32, 0#8, 0#8⟩

/-- The Event a port record names, none for the kinds 0 and 7 (R75, R77): every field the kind does not carry is
ignored. -/
def recordEvent (r : PortRecord) : Option Event :=
  if r.kind = 1#3 then some .setPositionAck
  else if r.kind = 2#3 then some (.positionReached r.x r.y)
  else if r.kind = 3#3 then some (.getPositionResponse r.x r.y r.flag)
  else if r.kind = 4#3 then some (.errorResponse (normCause r.cause))
  else if r.kind = 5#3 then some (.setPositionRequest r.x r.y)
  else if r.kind = 6#3 then some .getPositionRequest
  else none

/-- The 83 bits of a port record (R76): kind in bits 82 to 80, x in 79 to 48, y in 47 to 16, flag in 15 to 8, cause in
7 to 0. -/
def recordBits (r : PortRecord) : BitVec 83 := r.kind ++ r.x ++ r.y ++ r.flag ++ r.cause

/-- The fields of an 83-bit port record (R76). -/
def recordOfBits (v : BitVec 83) : PortRecord :=
  ⟨v.extractLsb' 80 3, v.extractLsb' 48 32, v.extractLsb' 16 32, v.extractLsb' 8 8, v.extractLsb' 0 8⟩

/-- The four kinds a device originates (R31, R154). -/
def deviceOriginated : Event → Bool
  | .setPositionAck => true
  | .positionReached _ _ => true
  | .getPositionResponse _ _ _ => true
  | .errorResponse _ => true
  | .setPositionRequest _ _ => false
  | .getPositionRequest => false

end Sys2Proof.Machine
end

