-- ==== Sys2Proof/WellFormed.lean ====
section
/-! DEFINITION. Which instructions the ports can present: the bounds of spec/10_state.md R30 and
spec/30_encoding.md R78 on a Command, and the shape of RX_PUSH_SEQ (R81). Every other form is unrestricted. -/

namespace Sys2Proof

/-- The payload of any Command is at most 8191 bytes (R30, R78). -/
def Command.payloadFits (c : Command) : Bool := decide (c.payload.length ≤ Config.maxPayload)

/-- The TX command port carries at most CMD_LEN_MAX cmd_type bytes (R78). -/
def Command.cmdFits (c : Command) : Bool := decide (c.cmdType.length ≤ Config.cmdLenMax)

/-- The instructions that can be presented. RX_PUSH_SEQ has at least the byte b0 (R81). -/
def Instr.wellFormed : Instr → Bool
  | .setPositionRequest _ _ => true
  | .getPositionRequest => true
  | .setPositionAck _ => true
  | .positionReached _ _ _ => true
  | .getPositionResponse _ _ _ _ => true
  | .errorResponse _ _ _ => true
  | .checksum _ => true
  | .decodePass => true
  | .encode c => c.payloadFits
  | .toEvent c => c.payloadFits
  | .toCommand _ => true
  | .rxPush _ => true
  | .outPop => true
  | .txSubmitCmd r => r.command.payloadFits && r.command.cmdFits
  | .txSubmitReq _ => true
  | .txStep => true
  | .statRead _ => true
  | .reset => true
  | .rxPushSeq bs => !bs.isEmpty

end Sys2Proof
end

