-- ==== Sys2Proof/Decode.lean ====
section
/-! DEFINITION. Reading one offered item from bytes and writing it back.
A message item is its frame as spec/30_encoding.md R60 lays it out (the spec's own encoding). The spec gives the
functions and transactions a textual notation only (R14), so their bytes are the model's own: log entry 2. Decoding is
total, refuses by name, and reads each item in one form only. The opcode table's words (R80) are at the end. -/

namespace Sys2Proof

open Sys2Proof.Machine

/-- Why bytes are no presentable item. -/
inductive DecodeError where
  /-- the bytes end inside an item -/
  | truncated
  /-- the first byte is neither SYNC0 nor an opcode of the model -/
  | unknownOpcode
  /-- SYNC0 is not followed by SYNC1 -/
  | badSync
  /-- a message item whose checksum byte is wrong (R91) -/
  | badChecksum
  /-- a frame outside the message map (R71) -/
  | notInMessageMap
  /-- a request frame whose reserved bytes are not zero, which a transmitter never writes (R66) -/
  | reservedNotZero
  /-- a byte list with a marker other than 00 and 01 -/
  | badMarker
  /-- a status byte with bits of no field: above 0F in a Command record (R78), above 08 in a Command (R30), which has nine
  statuses; their bytes are the model's (log entry 2) -/
  | badStatusByte
  /-- a payload length above 13 bits (R78) -/
  | badPayloadLength
  /-- more cmd_type bytes than the port carries (R78) -/
  | cmdTypeTooLong
  /-- a kind byte above 7 (R75) -/
  | badKind
  /-- a counter number above 7 (R175) -/
  | badCounterNumber
  /-- an RX_PUSH_SEQ of no byte (R81) -/
  | emptySequence
deriving DecidableEq, Repr

/-- The reasons that are bounds of R78 and not of the model's notation: a record longer than the port can carry. -/
def DecodeError.overBounds : DecodeError → Bool
  | .badPayloadLength => true
  | .cmdTypeTooLong => true
  | .truncated => false
  | .unknownOpcode => false
  | .badSync => false
  | .badChecksum => false
  | .notInMessageMap => false
  | .reservedNotZero => false
  | .badMarker => false
  | .badStatusByte => false
  | .badKind => false
  | .badCounterNumber => false
  | .emptySequence => false

/-- What decoding answers: an instruction and the bytes after it, or the reason there is none. -/
inductive Decoded where
  | ok (i : Instr) (rest : List Byte)
  | bad (e : DecodeError)
deriving DecidableEq, Repr

/-- A part of an item read from bytes: its value and the bytes after it, or the reason there is none. -/
inductive Parsed (α : Type) where
  | got (a : α) (rest : List Byte)
  | err (e : DecodeError)
deriving DecidableEq, Repr

/-- Go on after a part. -/
def Parsed.andThen {α : Type} (p : Parsed α) (f : α → List Byte → Decoded) : Decoded :=
  match p with
  | .got a rest => f a rest
  | .err e => .bad e

/-- The next n bytes. -/
def takeBytes : Nat → List Byte → Parsed (List Byte)
  | 0, bs => .got [] bs
  | _ + 1, [] => .err .truncated
  | n + 1, b :: bs =>
    match takeBytes n bs with
    | .got p rest => .got (b :: p) rest
    | .err e => .err e

/-- A byte list of any length: 01 before each byte, 00 at the end. -/
def parseMarked : List Byte → Parsed (List Byte)
  | [] => .err .truncated
  | [m] => if m = 0#8 then .got [] [] else if m = 1#8 then .err .truncated else .err .badMarker
  | m :: b :: t =>
    if m = 0#8 then .got [] (b :: t)
    else if m = 1#8 then
      match parseMarked t with
      | .got bs rest => .got (b :: bs) rest
      | .err e => .err e
    else .err .badMarker

/-- The inverse of `parseMarked`. -/
def markedBytes : List Byte → List Byte
  | [] => [0#8]
  | b :: bs => 1#8 :: b :: markedBytes bs

/-- The nine statuses of a Command (R30): a code as itself, an absent status as 08. The byte is the model's (log entry
2). -/
def statusByte : Option (BitVec 3) → Byte
  | none => 8#8
  | some st => (0#5 ++ st)

/-- The inverse of `statusByte`. -/
def parseStatusByte (b : Byte) : Option (Option (BitVec 3)) :=
  if b = 8#8 then some none
  else if b.extractLsb' 3 5 = 0#5 then some (some (b.extractLsb' 0 3))
  else none

/-- status_present in bit 3 and status[2:0] in bits 2 to 0 (R78), the status bits as they are also where no status is
present. -/
def presentByte (present : Bool) (st : BitVec 3) : Byte := 0#4 ++ BitVec.ofBool present ++ st

/-- The inverse of `presentByte`: status_present and the status bits. -/
def parsePresentByte (b : Byte) : Option (Bool × BitVec 3) :=
  if b.extractLsb' 4 4 = 0#4 then some (b.getLsbD 3, b.extractLsb' 0 3) else none

/-- The fields that a Command and a Command record share, around a status byte: cmd_type, status byte, payload length
(13 bits, low byte first), payload. -/
def fieldBytes (cmd : List Byte) (sb : Byte) (p : List Byte) : List Byte :=
  markedBytes cmd ++
    (sb :: (BitVec.ofNat 16 p.length).extractLsb' 0 8 :: (BitVec.ofNat 16 p.length).extractLsb' 8 8 :: p)

/-- The payload, its length in the two bytes before it. -/
def parsePayload (lo hi : Byte) (rest : List Byte) : Parsed (List Byte) :=
  if (hi ++ lo).toNat ≤ Config.maxPayload then takeBytes (hi ++ lo).toNat rest else .err .badPayloadLength

/-- The inverse of `fieldBytes`. -/
def parseFields (bs : List Byte) : Parsed (List Byte × Byte × List Byte) :=
  match parseMarked bs with
  | .err e => .err e
  | .got cmd (sb :: lo :: hi :: rest) =>
    match parsePayload lo hi rest with
    | .got p rest' => .got (cmd, sb, p) rest'
    | .err e => .err e
  | .got _ _ => .err .truncated

/-- A Command as an operand of ENCODE and TO_EVENT (R30). -/
def commandBytes (c : Command) : List Byte := fieldBytes c.cmdType (statusByte c.status) c.payload

/-- The inverse of `commandBytes`. -/
def parseCommand (bs : List Byte) : Parsed Command :=
  match parseFields bs with
  | .got (cmd, sb, p) rest =>
    match parseStatusByte sb with
    | some st => .got ⟨cmd, st, p⟩ rest
    | none => .err .badStatusByte
  | .err e => .err e

/-- A Command record at the port (R78). -/
def commandRecordBytes (r : CommandRecord) : List Byte :=
  fieldBytes r.cmdType (presentByte r.statusPresent r.status) r.payload

/-- The inverse of `commandRecordBytes`. -/
def parseCommandRecord (bs : List Byte) : Parsed CommandRecord :=
  match parseFields bs with
  | .got (cmd, sb, p) rest =>
    match parsePresentByte sb with
    | some (present, st) => .got ⟨cmd, present, st, p⟩ rest
    | none => .err .badStatusByte
  | .err e => .err e

/-- A port record field by field: kind, x and y low byte first, flag, cause. -/
def recordBytes (r : PortRecord) : List Byte :=
  (0#5 ++ r.kind) :: (leBytes32 r.x ++ (leBytes32 r.y ++ [r.flag, r.cause]))

/-- The inverse of `recordBytes`. -/
def parseRecord : List Byte → Parsed PortRecord
  | k :: x0 :: x1 :: x2 :: x3 :: y0 :: y1 :: y2 :: y3 :: f :: c :: rest =>
    if k.extractLsb' 3 5 = 0#5 then
      .got ⟨k.extractLsb' 0 3, leWord x0 x1 x2 x3, leWord y0 y1 y2 y3, f, c⟩ rest
    else .err .badKind
  | _ => .err .truncated

/-- The message a frame is, by the message map (R71). -/
def classifyFrame (cmd : Byte) (rsv : Reserved) (st : BitVec 3) (p rest : List Byte) : Decoded :=
  if st = 3#3 ∧ p.length = 1 then .ok (.errorResponse cmd rsv (byteAt p 0)) rest
  else if cmd = 0x91#8 ∧ st = 1#3 ∧ p.length = 0 then .ok (.setPositionAck rsv) rest
  else if cmd = 0x91#8 ∧ st = 2#3 ∧ p.length = 8 then .ok (.positionReached rsv (leU32 p 0) (leU32 p 4)) rest
  else if cmd = 0x93#8 ∧ st = 2#3 ∧ p.length = 9 then
    .ok (.getPositionResponse rsv (leU32 p 0) (leU32 p 4) (byteAt p 8)) rest
  else if cmd = 0x31#8 ∧ st = 0#3 ∧ p.length = 8 then
    if rsv = Reserved.zero then .ok (.setPositionRequest (leU32 p 0) (leU32 p 4)) rest else .bad .reservedNotZero
  else if cmd = 0x33#8 ∧ st = 0#3 ∧ p.length = 0 then
    if rsv = Reserved.zero then .ok .getPositionRequest rest else .bad .reservedNotZero
  else .bad .notInMessageMap

/-- The payload and the checksum byte of a frame. -/
def parseFrameTail (plen : Nat) (t : List Byte) : Parsed (List Byte × Byte) :=
  match takeBytes plen t with
  | .got p (chk :: rest) => .got (p, chk) rest
  | .got _ [] => .err .truncated
  | .err e => .err e

/-- A message item after SYNC0: the rest of its frame (R60, R63, R91). -/
def decodeFrame : List Byte → Decoded
  | s1 :: cmd :: r3 :: r4 :: r5 :: r6 :: b7 :: b8 :: t =>
    if s1 = Config.sync1 then
      (parseFrameTail (payloadLen (lenFlags Config.lenOrder b7 b8)) t).andThen fun pc rest =>
        if checksum (cmd :: r3 :: r4 :: r5 :: r6 :: b7 :: b8 :: pc.1) = pc.2 then
          classifyFrame cmd ⟨r3, r4, r5, r6⟩ (statusBits (lenFlags Config.lenOrder b7 b8)) pc.1 rest
        else .bad .badChecksum
    else .bad .badSync
  | _ => .bad .truncated

/-- RX_PUSH's one byte (R170). -/
def decodeRxPush : List Byte → Decoded
  | b :: rest => .ok (.rxPush b) rest
  | [] => .bad .truncated

/-- STAT_READ's counter number (R175). -/
def decodeStatRead : List Byte → Decoded
  | b :: rest => if b.extractLsb' 3 5 = 0#5 then .ok (.statRead (b.extractLsb' 0 3)) rest else .bad .badCounterNumber
  | [] => .bad .truncated

/-- TX_SUBMIT_CMD's Command record, held to the port's width (R78). -/
def decodeSubmitCmd (bs : List Byte) : Decoded :=
  (parseCommandRecord bs).andThen fun r rest =>
    if r.command.cmdFits then .ok (.txSubmitCmd r) rest else .bad .cmdTypeTooLong

/-- RX_PUSH_SEQ's bytes, at least one (R81). -/
def decodePushSeq (bs : List Byte) : Decoded :=
  (parseMarked bs).andThen fun l rest => if l.isEmpty then .bad .emptySequence else .ok (.rxPushSeq l) rest

/-- The first offered item of a byte sequence. -/
def decode : List Byte → Decoded
  | [] => .bad .truncated
  | op :: t =>
    if op = Config.sync0 then decodeFrame t
    else if op = 0x01#8 then (parseMarked t).andThen fun l rest => .ok (.checksum l) rest
    else if op = 0x02#8 then .ok .decodePass t
    else if op = 0x03#8 then (parseCommand t).andThen fun c rest => .ok (.encode c) rest
    else if op = 0x04#8 then (parseCommand t).andThen fun c rest => .ok (.toEvent c) rest
    else if op = 0x05#8 then (parseRecord t).andThen fun r rest => .ok (.toCommand r) rest
    else if op = 0x10#8 then decodeRxPush t
    else if op = 0x11#8 then .ok .outPop t
    else if op = 0x12#8 then decodeSubmitCmd t
    else if op = 0x13#8 then (parseRecord t).andThen fun r rest => .ok (.txSubmitReq r) rest
    else if op = 0x14#8 then .ok .txStep t
    else if op = 0x15#8 then decodeStatRead t
    else if op = 0x16#8 then .ok .reset t
    else if op = 0x17#8 then decodePushSeq t
    else .bad .unknownOpcode

/-- The bytes of an offered item: a message as its frame on the wire (R60), everything else in the model's own bytes. -/
def encode : Instr → List Byte
  | .setPositionRequest x y => setPositionRequestFrame x y
  | .getPositionRequest => getPositionRequestFrame
  | .setPositionAck rsv => setPositionAckFrame rsv
  | .positionReached rsv x y => positionReachedFrame rsv x y
  | .getPositionResponse rsv x y flag => getPositionResponseFrame rsv x y flag
  | .errorResponse cmd rsv cause => errorResponseFrame cmd rsv cause
  | .checksum bs => 0x01#8 :: markedBytes bs
  | .decodePass => [0x02#8]
  | .encode c => 0x03#8 :: commandBytes c
  | .toEvent c => 0x04#8 :: commandBytes c
  | .toCommand r => 0x05#8 :: recordBytes r
  | .rxPush b => [0x10#8, b]
  | .outPop => [0x11#8]
  | .txSubmitCmd r => 0x12#8 :: commandRecordBytes r
  | .txSubmitReq r => 0x13#8 :: recordBytes r
  | .txStep => [0x14#8]
  | .statRead n => [0x15#8, 0#5 ++ n]
  | .reset => [0x16#8]
  | .rxPushSeq bs => 0x17#8 :: markedBytes bs

/-- The first byte of an item. -/
def opcodeByte : Instr → Byte
  | .setPositionRequest _ _ => Config.sync0
  | .getPositionRequest => Config.sync0
  | .setPositionAck _ => Config.sync0
  | .positionReached _ _ _ => Config.sync0
  | .getPositionResponse _ _ _ _ => Config.sync0
  | .errorResponse _ _ _ => Config.sync0
  | .checksum _ => 0x01#8
  | .decodePass => 0x02#8
  | .encode _ => 0x03#8
  | .toEvent _ => 0x04#8
  | .toCommand _ => 0x05#8
  | .rxPush _ => 0x10#8
  | .outPop => 0x11#8
  | .txSubmitCmd _ => 0x12#8
  | .txSubmitReq _ => 0x13#8
  | .txStep => 0x14#8
  | .statRead _ => 0x15#8
  | .reset => 0x16#8
  | .rxPushSeq _ => 0x17#8

/-- A message row of spec/opcode_table.json: match and mask over the key `{cmd_type, status}` (R80), and the
PayloadLen the kind requires. -/
structure KeyRow where
  kindMatch : Nat
  kindMask  : Nat
  plen      : Nat
deriving DecidableEq, Repr

/-- The six message rows, in the table's order. -/
def keyRows : List KeyRow :=
  [⟨0x188, 0x7FF, 8⟩, ⟨0x198, 0x7FF, 0⟩, ⟨0x489, 0x7FF, 0⟩, ⟨0x48A, 0x7FF, 8⟩, ⟨0x49A, 0x7FF, 9⟩, ⟨0x003, 0x007, 1⟩]

/-- Does a row of the table cover a key? -/
def KeyRow.covers (r : KeyRow) (key : Nat) : Bool := decide (key &&& r.kindMask = r.kindMatch)

/-- The row of a key. -/
def rowOfKey (key : Nat) : Option KeyRow := keyRows.find? (fun r => r.covers key)

/-- A frame of the row a key belongs to: its payload and reserved bytes zero, its checksum as R91 gives it. -/
def frameOfKey (key : Nat) : Option (List Byte) :=
  (rowOfKey key).map fun r =>
    wireFrame Config.lenOrder (BitVec.ofNat 8 (key / 8)) Reserved.zero (BitVec.ofNat 3 key) (List.replicate r.plen 0#8)

/-- The n low bytes of a number, the least significant first. -/
def lowBytes : Nat → Nat → List Byte
  | 0, _ => []
  | n + 1, w => BitVec.ofNat 8 w :: lowBytes n (w / 256)

/-- A 9-byte header completed to a frame: a payload of zeros of the header's length, and the checksum (R91). -/
def frameOfHeader (h : List Byte) : Option (List Byte) :=
  if byteAt h 0 = Config.sync0 ∧ byteAt h 1 = Config.sync1 then
    let plen := payloadLen (lenFlags Config.lenOrder (byteAt h 7) (byteAt h 8))
    let f := h ++ List.replicate plen 0#8
    some (f ++ [checksum (f.drop 2)])
  else none

/-- The frame a word of the opcode table stands for. Below 2^11 it is the key of R80; otherwise a 9-byte header, byte 0
in the low byte or, as the table's pattern is written, in the high byte. Log entry 15. -/
def frameOfTableWord (w : Nat) : Option (List Byte) :=
  if w < 2048 then frameOfKey w
  else
    match frameOfHeader (lowBytes 9 w) with
    | some f => some f
    | none => frameOfHeader (lowBytes 9 w).reverse

/-- The bytes a word of the opcode table is laid out as: its frame, or the word's own bytes where it is no message. -/
def tableWordBytes (nbits w : Nat) : List Byte :=
  match frameOfTableWord w with
  | some f => f
  | none => lowBytes ((nbits + 7) / 8) w

/-- The instruction the decoder reads from a word of the opcode table. -/
def decodeTableWord (nbits w : Nat) : Option Instr :=
  match decode (tableWordBytes nbits w) with
  | .ok i _ => some i
  | .bad _ => none

end Sys2Proof
end

