-- ==== Sys2Proof/Machine/State.lean ====
section
/-! DEFINITION. The state of the block as plain data. Block is all that spec/10_state.md gives it (R22, R25 to R28, R35).
State is the block with its surroundings, three fields of the model's own (log entries 1, 4 and 7): what the host offers
next, a submission that is being held, and what the last transaction gave back. -/

namespace Sys2Proof.Machine

/-- The eight status counters of R28, each 32 bits. -/
structure Counters where
  framesOk      : Word32
  framesBad     : Word32
  mapErrCmdType : Word32
  mapErrPayload : Word32
  outDrops      : Word32
  txFrames      : Word32
  txEncErr      : Word32
  reserved      : Word32
deriving DecidableEq, Repr

/-- What a transaction or function gave back at its port (R171 to R175, and the results of the functions). The model's
own field: log entry 7. -/
inductive Response where
  /-- nothing was given back (RX_PUSH, RESET; R178) -/
  | nothing
  /-- the submission is held, not answered (R172) -/
  | held
  /-- OUT_POP's record (R171) -/
  | event (r : PortRecord)
  /-- a submission was accepted (R172, R173), code 0 of R79 -/
  | accepted
  /-- InvalidCommandType or InvalidPayload, codes 1 and 2 of R79 -/
  | error (e : MapError)
  /-- STAT_READ's 32 bits (R175) -/
  | counter (v : Word32)
  /-- CHECKSUM's byte (R90) -/
  | checksum (b : Byte)
  /-- DECODE_PASS's Commands (R101) -/
  | commands (cs : List Command)
  /-- ENCODE's frame (R130) -/
  | frame (bs : List Byte)
  /-- TO_EVENT's Event (R140) -/
  | mapped (e : Event)
  /-- TO_COMMAND's Command (R151) -/
  | command (c : Command)
deriving DecidableEq, Repr

/-- The state the spec gives the block: "The block has no other state" (R35). The parameters, the order of transactions and
the bytes pushed are no fields of it (R32). -/
structure Block where
  /-- RXBUF (R22) -/
  rxbuf    : List Byte
  /-- OUTQ, head first (R25) -/
  outq     : List Event
  /-- TXQ, head first (R26) -/
  txq      : List Command
  /-- TXOUT, every byte appended so far (R27) -/
  txout    : List Byte
  /-- the status counters (R28) -/
  cnt      : Counters
deriving DecidableEq, Repr

/-- The machine behind the host's interface: the block, and around it what one function of a state needs to run it. -/
structure State extends Block where
  /-- MODEL'S OWN (log entry 7): what was last given back -/
  resp     : Response
  /-- MODEL'S OWN (log entry 4): the submission held while TXQ is full (R172) -/
  held     : Option Instr
  /-- MODEL'S OWN (log entry 1): the items the host offers, in the order in which they occur (R32, R177) -/
  schedule : List Byte
deriving DecidableEq, Repr

/-- The reasons for a machine fault: none. "The block has no traps, no exceptions in the processor sense and no halting
fault" (R200), so no constructor exists and no step can fault. -/
inductive Fault where
deriving DecidableEq, Repr

/-- The reasons a step is refused. -/
inductive Refusal where
  /-- Raised by no meaning: kept for an instruction without one, of which there is none. Safe. -/
  | notModelled (mnemonic : String)
  /-- Raised by step over a record longer than the port's bounds: more than 8191 payload bytes or CMD_LEN_MAX cmd_type bytes
  ("cannot present", R78; 93 I4 says refuse). Safe: the machine stops where no hardware has a step. Log entry 18. -/
  | notPresentable (e : DecodeError)
  /-- Raised by step over offered bytes that name no transaction in the model's notation and are no frame either. Safe: no
  operand of any instruction is shut out, and the machine stops where nothing was asked of it. Log entry 18. -/
  | notAnItem (e : DecodeError)
deriving DecidableEq, Repr

/-- All counters 0 (R35). -/
def Counters.zero : Counters := ⟨0#32, 0#32, 0#32, 0#32, 0#32, 0#32, 0#32, 0#32⟩

/-- The state just after RESET (R35, R220), with nothing sent before, nothing offered and nothing held. TXOUT, resp,
held and schedule are named by log entries 12, 7, 4 and 1. -/
def State.reset : State where
  rxbuf := []
  outq := []
  txq := []
  txout := []
  cnt := Counters.zero
  resp := .nothing
  held := none
  schedule := []

end Sys2Proof.Machine
end

