-- ==== Sys2Proof/Machine/Ops.lean ====
section
/-! DEFINITION. The shared operations: the pure functions of the codec (spec/41_decoder.md, 42_encoder.md,
43_mapper.md) and the operations over the state that the transactions of 44_ports.md are built from.
The block takes no exception (60_exceptions.md R200, R206): what stands in that place is recording an error, `fail` for
one given back to the host and `countMapError` for one counted. -/

namespace Sys2Proof.Machine

/-! ### One update per field -/

def State.setRxbuf (s : State) (v : List Byte) : State := { s with rxbuf := v }
def State.setOutq (s : State) (v : List Event) : State := { s with outq := v }
def State.setTxq (s : State) (v : List Command) : State := { s with txq := v }
def State.setTxout (s : State) (v : List Byte) : State := { s with txout := v }
def State.setCnt (s : State) (v : Counters) : State := { s with cnt := v }
def State.setResp (s : State) (v : Response) : State := { s with resp := v }
def State.setHeld (s : State) (v : Option Instr) : State := { s with held := v }
def State.setSchedule (s : State) (v : List Byte) : State := { s with schedule := v }

/-! ### Counters (R28, R29): every addition wraps mod 2^32, and counter 7 counts nothing -/

def Counters.addFramesOk (c : Counters) (n : Nat) : Counters := { c with framesOk := c.framesOk + BitVec.ofNat 32 n }
def Counters.addFramesBad (c : Counters) (n : Nat) : Counters := { c with framesBad := c.framesBad + BitVec.ofNat 32 n }
def Counters.incMapErrCmdType (c : Counters) : Counters := { c with mapErrCmdType := c.mapErrCmdType + 1#32 }
def Counters.incMapErrPayload (c : Counters) : Counters := { c with mapErrPayload := c.mapErrPayload + 1#32 }
def Counters.incOutDrops (c : Counters) : Counters := { c with outDrops := c.outDrops + 1#32 }
def Counters.incTxFrames (c : Counters) : Counters := { c with txFrames := c.txFrames + 1#32 }
def Counters.incTxEncErr (c : Counters) : Counters := { c with txEncErr := c.txEncErr + 1#32 }

/-- What STAT_READ n returns (R175): counter n, and 0 for number 7. -/
def Counters.read (c : Counters) (n : BitVec 3) : Word32 :=
  if n = 0#3 then c.framesOk
  else if n = 1#3 then c.framesBad
  else if n = 2#3 then c.mapErrCmdType
  else if n = 3#3 then c.mapErrPayload
  else if n = 4#3 then c.outDrops
  else if n = 5#3 then c.txFrames
  else if n = 6#3 then c.txEncErr
  else 0#32

/-! ### The decode pass -/

/-- FindSync (R102): the least index at which the sync pattern stands. -/
def findSync : List Byte → Option Nat
  | [] => none
  | [_] => none
  | a :: b :: t =>
    if a = Config.sync0 ∧ b = Config.sync1 then some 0
    else (findSync (b :: t)).map (· + 1)

/-- PayloadLen of the frame at the head (R62, R63, R64). -/
def payloadLenAt (o : LenOrder) (b : List Byte) : Nat := payloadLen (lenFlags o (byteAt b 7) (byteAt b 8))

/-- FrameLen of the frame at the head (R62). -/
def frameLenAt (o : LenOrder) (b : List Byte) : Nat := Config.minFrame + payloadLenAt o b

/-- The checksum gate (R91): the checksum of `b[2 : flen-1]` is the byte `b[flen-1]`. -/
def frameValid (b : List Byte) (flen : Nat) : Bool :=
  decide (checksum (slice b 2 (flen - 1)) = byteAt b (flen - 1))

/-- The Command of the frame at the head (R105): one cmd_type byte, the raw status, the payload slice. -/
def commandAt (o : LenOrder) (b : List Byte) : Command where
  cmdType := [byteAt b 2]
  status := some (statusBits (lenFlags o (byteAt b 7) (byteAt b 8)))
  payload := slice b Config.hdrLen (Config.hdrLen + payloadLenAt o b)

/-- What a pass gives: its Commands in order, how many frames it discarded as corrupt, and the buffer left. -/
structure PassResult where
  commands : List Command
  bad      : Nat
  rest     : List Byte
deriving DecidableEq, Repr

/-- A pass in which one more frame came first: its Command if the checksum matched (R105), a corrupt frame if not
(R106). -/
def PassResult.after (r : PassResult) (valid : Bool) (c : Command) : PassResult :=
  if valid then { r with commands := c :: r.commands } else { r with bad := r.bad + 1 }

/-- The loop of R101: resync (R102, R103), completeness (R104), integrity (R105, R106), repeat. The first argument
bounds the turns; each turn removes at least 10 bytes (R107), so the buffer's length is enough: log entry 21. -/
def decodeLoop (o : LenOrder) : Nat → List Byte → PassResult
  | 0, buf => ⟨[], 0, buf⟩
  | n + 1, buf =>
    match findSync buf with
    | none => ⟨[], 0, buf⟩
    | some i =>
      let b := buf.drop i
      if b.length < Config.minFrame then ⟨[], 0, b⟩
      else if b.length < frameLenAt o b then ⟨[], 0, b⟩
      else
        (decodeLoop o n (b.drop (frameLenAt o b))).after (frameValid b (frameLenAt o b)) (commandAt o b)

/-- DECODE_FRAMES (R117): one decode pass as a pure function of the buffer, with the counter deltas. -/
def decodeFrames (o : LenOrder) (buf : List Byte) : PassResult := decodeLoop o (buf.length + 1) buf

/-- The phase of the receive sequencer (R24). -/
inductive Phase where
  | hunt
  | seek
  | syncHdr
  | syncBody
  | complete
deriving DecidableEq, Repr

/-- Phase(RXBUF) (R24). -/
def phase (o : LenOrder) (buf : List Byte) : Phase :=
  match findSync buf with
  | none => .hunt
  | some (_ + 1) => .seek
  | some 0 =>
    if buf.length < Config.minFrame then .syncHdr
    else if buf.length < frameLenAt o buf then .syncBody
    else .complete

/-- The overflow trim (R112) of a buffer of capacity cap: a full one keeps its last byte if that is SYNC0, else
nothing. -/
def overflowTrim (cap : Nat) (buf : List Byte) : List Byte :=
  if buf.length = cap then
    if byteAt buf (cap - 1) = Config.sync0 then [Config.sync0] else []
  else buf

/-! ### The encoder and the mapper -/

/-- ENCODE (R130): InvalidCommandType unless cmd_type is one byte (R131); status bits and reserved bytes zero whatever
the Command's status (R132, R134). -/
def encodeFrame (o : LenOrder) (c : Command) : Except MapError (List Byte) :=
  match c.cmdType with
  | [b] => .ok (wireFrame o b Reserved.zero 0#3 c.payload)
  | _ => .error .invalidCommandType

/-- TO_EVENT after the status (R140): states V_ERROR, V_CMD and on of the validator (R142). -/
def validate (s : ResponseStatus) (cmd p : List Byte) : Except MapError Event :=
  if s = .error then
    if p.length = 1 then .ok (.errorResponse (normCause (byteAt p 0))) else .error .invalidPayload
  else if cmd = [0x91#8] then
    if s = .ok then
      if p.length = 0 then .ok .setPositionAck else .error .invalidPayload
    else if s = .okWithData then
      if p.length = 8 then .ok (.positionReached (leU32 p 0) (leU32 p 4)) else .error .invalidPayload
    else .error .invalidPayload
  else if cmd = [0x93#8] then
    if s = .okWithData ∧ p.length = 9 then .ok (.getPositionResponse (leU32 p 0) (leU32 p 4) (byteAt p 8))
    else .error .invalidPayload
  else .error .invalidCommandType

/-- TO_EVENT (R140): an absent status fails before anything else is read (R141). -/
def toEvent (c : Command) : Except MapError Event :=
  match c.status with
  | none => .error .invalidPayload
  | some code => validate (normStatus code) c.cmdType c.payload

/-- TO_COMMAND (R151) on an Event: the two requests only (R154). -/
def toCommand : Event → Except MapError Command
  | .setPositionRequest x y => .ok ⟨[0x31#8], none, leBytes32 x ++ leBytes32 y⟩
  | .getPositionRequest => .ok ⟨[0x33#8], none, []⟩
  | .setPositionAck => .error .invalidCommandType
  | .positionReached _ _ => .error .invalidCommandType
  | .getPositionResponse _ _ _ => .error .invalidCommandType
  | .errorResponse _ => .error .invalidCommandType

/-- TO_COMMAND on a request record (R77, R173): the kinds 0 and 7 name no Event and fail as well. -/
def recordCommand (r : PortRecord) : Except MapError Command :=
  match recordEvent r with
  | some e => toCommand e
  | none => .error .invalidCommandType

/-! ### The receive engine -/

/-- A mapping error of the receive path is counted and the Command is lost (R108). -/
def countMapError (s : State) (e : MapError) : State :=
  match e with
  | .invalidCommandType => s.setCnt s.cnt.incMapErrCmdType
  | .invalidPayload => s.setCnt s.cnt.incMapErrPayload

/-- An Event enters OUTQ at its tail, or is dropped and counted when OUTQ is full (R108). -/
def deliverEvent (s : State) (e : Event) : State :=
  if s.outq.length < Config.outqDepth then s.setOutq (s.outq ++ [e]) else s.setCnt s.cnt.incOutDrops

/-- Delivery of one Command (R108). -/
def deliver (s : State) (c : Command) : State :=
  match toEvent c with
  | .ok e => deliverEvent s e
  | .error e => countMapError s e

/-- The decode pass on RXBUF with its counters (R101), and then the delivery of its Commands in order (R108). -/
def receivePass (s : State) : State :=
  let r := decodeFrames Config.lenOrder s.rxbuf
  r.commands.foldl deliver
    ((s.setRxbuf r.rest).setCnt ((s.cnt.addFramesOk r.commands.length).addFramesBad r.bad))

/-- RX_PUSH (R170): trim, append, pass, delivery, in that order (R205). -/
def pushByte (s : State) (b : Byte) : State :=
  receivePass (s.setRxbuf (overflowTrim Config.rxCap s.rxbuf ++ [b]))

/-- RX_PUSH of each byte in order, nothing between them (R81). -/
def pushBytes (s : State) (bs : List Byte) : State := bs.foldl pushByte s

/-! ### The transmit side -/

/-- Has TXQ room, so that a submission is enabled (R172)? -/
def State.txqHasRoom (s : State) : Bool := decide (s.txq.length < Config.txqDepth)

/-- A Command enters TXQ at its tail and the submitter gets OK (R172). -/
def accept (s : State) (c : Command) : State := (s.setTxq (s.txq ++ [c])).setResp .accepted

/-- An error is given back to the host and nothing else changes (R173, R201). -/
def fail (s : State) (e : MapError) : State := s.setResp (.error e)

/-- A submission to a full TXQ is held (R172): nothing of the block changes until a TX_STEP frees an entry. -/
def hold (s : State) (i : Instr) : State := (s.setHeld (some i)).setResp .held

/-- A submission i whose answer is r: held while TXQ is full, whatever r (R172, R173). -/
def submit (s : State) (i : Instr) (r : Except MapError Command) : State :=
  if s.txqHasRoom then
    match r with
    | .ok c => accept s c
    | .error e => fail s e
  else hold s i

/-- One Command leaves TXQ and its frame is appended to TXOUT, or the encode failure is counted (R174). -/
def transmit (s : State) (c : Command) (rest : List Command) : State :=
  match encodeFrame Config.lenOrder c with
  | .ok f => ((s.setTxq rest).setTxout (s.txout ++ f)).setCnt s.cnt.incTxFrames
  | .error _ => (s.setTxq rest).setCnt s.cnt.incTxEncErr

/-- TX_STEP (R174); with TXQ empty it is not enabled and nothing happens (R179). Log entry 5. -/
def txEngine (s : State) : State :=
  match s.txq with
  | [] => s
  | c :: rest => transmit s c rest

/-- RESET (R220): TXOUT keeps what was sent. -/
def clear (s : State) : State :=
  (((s.setRxbuf []).setOutq []).setTxq []).setCnt Counters.zero

/-- The result code a submitter reads (R79): 0 OK, 1 InvalidCommandType, 2 InvalidPayload; a held submission has
none. -/
def Response.code (r : Response) : Option Nat :=
  match r with
  | .accepted => some 0
  | .error e => some (errorCode e)
  | .nothing => none
  | .held => none
  | .event _ => none
  | .counter _ => none
  | .checksum _ => none
  | .commands _ => none
  | .frame _ => none
  | .mapped _ => none
  | .command _ => none

/-- Is the transaction enabled (44_ports.md)? Submissions need room in TXQ (R172, R173), TX_STEP needs a Command
(R174), everything else is always enabled. -/
def enabled (i : Instr) (s : State) : Bool :=
  match i with
  | .setPositionRequest _ _ => s.txqHasRoom
  | .getPositionRequest => s.txqHasRoom
  | .setPositionAck _ => true
  | .positionReached _ _ _ => true
  | .getPositionResponse _ _ _ _ => true
  | .errorResponse _ _ _ => true
  | .checksum _ => true
  | .decodePass => true
  | .encode _ => true
  | .toEvent _ => true
  | .toCommand _ => true
  | .rxPush _ => true
  | .outPop => true
  | .txSubmitCmd _ => s.txqHasRoom
  | .txSubmitReq _ => s.txqHasRoom
  | .txStep => !s.txq.isEmpty
  | .statRead _ => true
  | .reset => true
  | .rxPushSeq _ => true

/-- The submissions, which are the only transactions that can be held (R172, R173). -/
def isSubmission : Instr → Bool
  | .setPositionRequest _ _ => true
  | .getPositionRequest => true
  | .setPositionAck _ => false
  | .positionReached _ _ _ => false
  | .getPositionResponse _ _ _ _ => false
  | .errorResponse _ _ _ => false
  | .checksum _ => false
  | .decodePass => false
  | .encode _ => false
  | .toEvent _ => false
  | .toCommand _ => false
  | .rxPush _ => false
  | .outPop => false
  | .txSubmitCmd _ => true
  | .txSubmitReq _ => true
  | .txStep => false
  | .statRead _ => false
  | .reset => false
  | .rxPushSeq _ => false

/-! ### Which transaction the machine's step runs (R177) -/

/-- What a step runs, and in which state: an instruction, or nothing because the offered bytes are no item. -/
inductive Choice where
  | run (i : Instr) (s : State)
  | bad (e : DecodeError)
deriving DecidableEq, Repr

/-- A whole frame at the head of the bytes, as long as its length field says (R60, R62), and the bytes after it: of any
kind, with any checksum. -/
def splitFrame (bs : List Byte) : Option (List Byte × List Byte) :=
  if byteAt bs 0 = Config.sync0 ∧ byteAt bs 1 = Config.sync1 ∧ frameLenAt Config.lenOrder bs ≤ bs.length then
    some (bs.take (frameLenAt Config.lenOrder bs), bs.drop (frameLenAt Config.lenOrder bs))
  else none

/-- Bytes that the decoder refuses. A whole frame that is no message of the map still arrives at the receive port byte by
byte, as any frame does (no frame is illegal in the trapping sense, R73; the host may push any byte, R178); other bytes are
no item. Log entry 18. -/
def chooseRefused (s : State) (e : DecodeError) : Choice :=
  match splitFrame s.schedule with
  | some (f, rest) => .run (.rxPushSeq f) (s.setSchedule rest)
  | none => .bad e

/-- The next offered item. With nothing offered the TX engine steps: log entry 6. While a submission is held the host
has no step on the submission ports (R172), so before another submission the TX engine steps: log entry 4. -/
def chooseOffered (s : State) : Choice :=
  match s.schedule with
  | [] => .run .txStep s
  | b :: bs =>
    match decode (b :: bs) with
    | .ok i rest => if s.held.isSome && isSubmission i then .run .txStep s else .run i (s.setSchedule rest)
    | .bad e => chooseRefused s e

/-- A held submission enters as soon as TXQ has room (R172); otherwise the next offered item runs. -/
def choose (s : State) : Choice :=
  match s.held with
  | some i => if s.txqHasRoom then .run i (s.setHeld none) else chooseOffered s
  | none => chooseOffered s

/-- The name of a refusal: a record beyond the bounds of R78, or bytes that are no item (log entry 18). -/
def refusalOf (e : DecodeError) : Refusal := if e.overBounds then .notPresentable e else .notAnItem e

end Sys2Proof.Machine
end

