-- ==== Sys2Proof/Machine/Messages.lean ====
section
/-! DEFINITION. The six message rows of the opcode table (spec/30_encoding.md R71). A device's message is its frame
arriving at the receive port byte by byte (R170, R81): what it does depends on what RXBUF holds already. A request is
the client's submission of it (R151, R173), whose frame TX_STEP writes later (R174). Log entry 3. -/

namespace Sys2Proof.Machine

/-- The result type of a meaning. -/
abbrev Result := Host.Outcome State Fault Refusal

/-- A frame arrives at the receive port. -/
def receiveFrame (s : State) (f : List Byte) : State := (pushBytes s f).setResp .nothing

/-- SetPositionRequest (R152, R173). -/
def execSetPositionRequest (x y : Word32) (s : State) : Result :=
  .next (submit s (.setPositionRequest x y) (toCommand (.setPositionRequest x y)))

/-- GetPositionRequest (R153, R173). -/
def execGetPositionRequest (s : State) : Result :=
  .next (submit s .getPositionRequest (toCommand .getPositionRequest))

/-- SetPositionAck (R144). -/
def execSetPositionAck (rsv : Reserved) (s : State) : Result := .next (receiveFrame s (setPositionAckFrame rsv))

/-- PositionReached (R144, R148). -/
def execPositionReached (rsv : Reserved) (x y : Word32) (s : State) : Result :=
  .next (receiveFrame s (positionReachedFrame rsv x y))

/-- GetPositionResponse (R145, R148, R149). -/
def execGetPositionResponse (rsv : Reserved) (x y : Word32) (flag : Byte) (s : State) : Result :=
  .next (receiveFrame s (getPositionResponseFrame rsv x y flag))

/-- ErrorResponse (R143). -/
def execErrorResponse (cmd : Byte) (rsv : Reserved) (cause : Byte) (s : State) : Result :=
  .next (receiveFrame s (errorResponseFrame cmd rsv cause))

end Sys2Proof.Machine
end

