-- ==== Sys2Proof/Machine/Functions.lean ====
section
/-! DEFINITION. The five function rows of the opcode table as steps of their own. CHECKSUM, ENCODE, TO_EVENT and
TO_COMMAND are pure ("State written: none"): only the answer given back changes. DECODE_PASS reads and writes RXBUF
(spec/41_decoder.md R101). Log entries 8 and 9. -/

namespace Sys2Proof.Machine

/-- CHECKSUM (R90). -/
def execChecksum (bs : List Byte) (s : State) : Result := .next (s.setResp (.checksum (checksum bs)))

/-- DECODE_PASS (R101): the pass on RXBUF, its Commands handed on (R108) and given back. -/
def execDecodePass (s : State) : Result :=
  .next ((receivePass s).setResp (.commands (decodeFrames Config.lenOrder s.rxbuf).commands))

/-- ENCODE (R130). -/
def execEncode (c : Command) (s : State) : Result :=
  match encodeFrame Config.lenOrder c with
  | .ok f => .next (s.setResp (.frame f))
  | .error e => .next (fail s e)

/-- TO_EVENT (R140). -/
def execToEvent (c : Command) (s : State) : Result :=
  match toEvent c with
  | .ok e => .next (s.setResp (.mapped e))
  | .error e => .next (fail s e)

/-- TO_COMMAND (R151). -/
def execToCommand (r : PortRecord) (s : State) : Result :=
  match recordCommand r with
  | .ok c => .next (s.setResp (.command c))
  | .error e => .next (fail s e)

end Sys2Proof.Machine
end

