-- ==== Sys2Proof/Machine/Ports.lean ====
section
/-! DEFINITION. The eight transaction rows of the opcode table (spec/44_ports.md, spec/70_reset_and_hazards.md R220,
spec/30_encoding.md R81). Each is one atomic step (R47) and none stops: every error is a value (R200). -/

namespace Sys2Proof.Machine

/-- RX_PUSH (R170). -/
def execRxPush (b : Byte) (s : State) : Result := .next ((pushByte s b).setResp .nothing)

/-- OUT_POP (R171): the head of OUTQ, or the kind 0 record when it is empty. -/
def execOutPop (s : State) : Result :=
  match s.outq with
  | [] => .next (s.setResp (.event emptyRecord))
  | e :: rest => .next ((s.setOutq rest).setResp (.event (eventRecord e)))

/-- TX_SUBMIT_CMD (R172): the record's Command is queued; the cmd_type length is not looked at here. -/
def execTxSubmitCmd (r : CommandRecord) (s : State) : Result := .next (submit s (.txSubmitCmd r) (.ok r.command))

/-- TX_SUBMIT_REQ (R173). -/
def execTxSubmitReq (r : PortRecord) (s : State) : Result := .next (submit s (.txSubmitReq r) (recordCommand r))

/-- TX_STEP (R174). -/
def execTxStep (s : State) : Result := .next (txEngine s)

/-- STAT_READ (R175). -/
def execStatRead (n : BitVec 3) (s : State) : Result := .next (s.setResp (.counter (s.cnt.read n)))

/-- RESET (R220). -/
def execReset (s : State) : Result := .next ((clear s).setResp .nothing)

/-- RX_PUSH_SEQ (R81). -/
def execRxPushSeq (bs : List Byte) (s : State) : Result := .next ((pushBytes s bs).setResp .nothing)

end Sys2Proof.Machine
end

