-- ==== Sys2Proof/Machine/Dispatch.lean ====
section
/-! DEFINITION. One arm for each constructor of Instr. -/

namespace Sys2Proof.Machine

def exec (i : Instr) (s : State) : Host.Outcome State Fault Refusal :=
  match i with
  | .setPositionRequest x y => Sys2Proof.Machine.execSetPositionRequest x y s
  | .getPositionRequest => Sys2Proof.Machine.execGetPositionRequest s
  | .setPositionAck rsv => Sys2Proof.Machine.execSetPositionAck rsv s
  | .positionReached rsv x y => Sys2Proof.Machine.execPositionReached rsv x y s
  | .getPositionResponse rsv x y flag => Sys2Proof.Machine.execGetPositionResponse rsv x y flag s
  | .errorResponse cmd rsv cause => Sys2Proof.Machine.execErrorResponse cmd rsv cause s
  | .checksum bs => Sys2Proof.Machine.execChecksum bs s
  | .decodePass => Sys2Proof.Machine.execDecodePass s
  | .encode c => Sys2Proof.Machine.execEncode c s
  | .toEvent c => Sys2Proof.Machine.execToEvent c s
  | .toCommand r => Sys2Proof.Machine.execToCommand r s
  | .rxPush b => Sys2Proof.Machine.execRxPush b s
  | .outPop => Sys2Proof.Machine.execOutPop s
  | .txSubmitCmd r => Sys2Proof.Machine.execTxSubmitCmd r s
  | .txSubmitReq r => Sys2Proof.Machine.execTxSubmitReq r s
  | .txStep => Sys2Proof.Machine.execTxStep s
  | .statRead n => Sys2Proof.Machine.execStatRead n s
  | .reset => Sys2Proof.Machine.execReset s
  | .rxPushSeq bs => Sys2Proof.Machine.execRxPushSeq bs s

end Sys2Proof.Machine
end

