-- ==== Sys2Proof/Machine/Step.lean ====
section
/-! DEFINITION. The step relation of spec/10_state.md R32 over the block alone, which takes the transaction as an argument,
and the machine's step, one function of the state, which reads that argument from plain data around the block (log entries
1, 4 and 6). -/

namespace Sys2Proof.Machine

/-- A block with nothing around it: nothing given back yet, nothing held, nothing offered. -/
def Block.alone (b : Block) : State := { toBlock := b, resp := .nothing, held := none, schedule := [] }

/-- The transaction i, an argument that the environment is free to choose among the presentable (R78) and enabled ones
(R32, R177), occurs: it takes the block b to c and gives r back. Blocks hold no order of transactions and no offered byte,
and nothing here puts one transaction before another. -/
def Occurs (i : Instr) (b c : Block) (r : Response) : Prop :=
  i.wellFormed = true ∧ enabled i b.alone = true ∧ exec i b.alone = .next { c.alone with resp := r }

/-- The transactions of a list occur one after the other, in the order the environment chose (R32, R177). -/
def Run : List Instr → Block → Block → Prop
  | [], b, d => d = b
  | i :: is, b, d => ∃ c r, Occurs i b c r ∧ Run is c d

/-- The chosen transaction runs; bytes that are no item are refused by name (log entry 18). -/
def step (s : State) : Host.Outcome State Fault Refusal :=
  match choose s with
  | .run i t => exec i t
  | .bad e => .refused (refusalOf e)

/-- The state in which the very next step runs the instruction of an opcode-table word: its bytes come first in the
schedule, and no submission is held. -/
def State.withFetchWord (s : State) (nbits w : Nat) : State :=
  (s.setHeld none).setSchedule (tableWordBytes nbits w ++ s.schedule)

end Sys2Proof.Machine
end

