-- ==== Sys2Proof/Safety.lean ====
section
/-! DEFINITION. The terms in which claims about the block are made: the invariant of a block between transactions
(spec/10_state.md R22, R24 to R26, R28), its two halves (R20), quiescence (spec/44_ports.md R179), passes over a stream
cut anyhow (spec/41_decoder.md R111), and what a device message says. -/

namespace Sys2Proof

open Sys2Proof.Machine

/-- RXBUF between transactions: HUNT, SYNC_HDR or SYNC_BODY (R24, R107). -/
def settled (o : LenOrder) (buf : List Byte) : Prop :=
  phase o buf = .hunt ∨ phase o buf = .syncHdr ∨ phase o buf = .syncBody

/-- What holds of the block between any two transactions. -/
structure Inv (s : State) : Prop where
  /-- RXBUF never exceeds RX_CAP (R22, R115) -/
  rxFits : s.rxbuf.length ≤ Config.rxCap
  /-- no complete frame waits in RXBUF (R24, R107) -/
  rxSettled : settled Config.lenOrder s.rxbuf
  /-- OUTQ is at most OUTQ_DEPTH deep (R25) -/
  outqFits : s.outq.length ≤ Config.outqDepth
  /-- OUTQ holds device-originated Events only (R31) -/
  outqDevice : ∀ e ∈ s.outq, deviceOriginated e = true
  /-- TXQ is at most TXQ_DEPTH deep (R26) -/
  txqFits : s.txq.length ≤ Config.txqDepth
  /-- every queued Command could be presented (R78) -/
  txqPresentable : ∀ c ∈ s.txq, c.payloadFits = true ∧ c.cmdFits = true
  /-- counter 7 counts nothing (R28) -/
  counterSeven : s.cnt.reserved = 0#32
  /-- only a presentable submission is ever held (R172) -/
  heldSubmission : ∀ i, s.held = some i → i.wellFormed = true ∧ isSubmission i = true

/-- What the RX engine and OUT_POP write: RXBUF, OUTQ, counters 0 to 4 (R20). -/
structure SameRxSide (s t : State) : Prop where
  rxbuf : t.rxbuf = s.rxbuf
  outq : t.outq = s.outq
  framesOk : t.cnt.framesOk = s.cnt.framesOk
  framesBad : t.cnt.framesBad = s.cnt.framesBad
  mapErrCmdType : t.cnt.mapErrCmdType = s.cnt.mapErrCmdType
  mapErrPayload : t.cnt.mapErrPayload = s.cnt.mapErrPayload
  outDrops : t.cnt.outDrops = s.cnt.outDrops

/-- What the TX engine and the submissions write: TXQ, TXOUT, counters 5 and 6 (R20). -/
structure SameTxSide (s t : State) : Prop where
  txq : t.txq = s.txq
  txout : t.txout = s.txout
  txFrames : t.cnt.txFrames = s.cnt.txFrames
  txEncErr : t.cnt.txEncErr = s.cnt.txEncErr

/-- The rest: counter 7, which nothing writes (R28), and the model's own schedule. -/
structure SameRest (s t : State) : Prop where
  counterSeven : t.cnt.reserved = s.cnt.reserved
  schedule : t.schedule = s.schedule

/-- Quiescent (R179), with nothing offered and nothing held: no agent has an enabled transaction. -/
def quiescent (s : State) : Prop := s.txq = [] ∧ s.schedule = [] ∧ s.held = none

/-- One pass after each chunk of a stream, on a buffer that starts as given (R111). -/
def passes (o : LenOrder) : List Byte → List (List Byte) → PassResult
  | buf, [] => ⟨[], 0, buf⟩
  | buf, c :: cs =>
    let r := decodeFrames o (buf ++ c)
    let q := passes o r.rest cs
    ⟨r.commands ++ q.commands, r.bad + q.bad, q.rest⟩

/-- The Event a device message reports (R71). -/
def messageEvent : Instr → Option Event
  | .setPositionRequest _ _ => none
  | .getPositionRequest => none
  | .setPositionAck _ => some .setPositionAck
  | .positionReached _ x y => some (.positionReached x y)
  | .getPositionResponse _ x y flag => some (.getPositionResponse x y flag)
  | .errorResponse _ _ cause => some (.errorResponse (normCause cause))
  | .checksum _ => none
  | .decodePass => none
  | .encode _ => none
  | .toEvent _ => none
  | .toCommand _ => none
  | .rxPush _ => none
  | .outPop => none
  | .txSubmitCmd _ => none
  | .txSubmitReq _ => none
  | .txStep => none
  | .statRead _ => none
  | .reset => none
  | .rxPushSeq _ => none

/-- The counters after one more good frame (R105). -/
def Machine.Counters.oneFrame (c : Counters) : Counters := { c with framesOk := c.framesOk + 1#32 }

/-- The state after one good frame whose Command is c left RXBUF with the bytes rest (R105, R108): its Event is queued,
or dropped at a full OUTQ, or its mapping error is counted. -/
def received (s : State) (rest : List Byte) (c : Command) (r : Response) : State :=
  match toEvent c with
  | .ok e =>
    if s.outq.length < 10 then
      { s with rxbuf := rest, outq := s.outq ++ [e], cnt := s.cnt.oneFrame, resp := r }
    else
      { s with rxbuf := rest, cnt := { s.cnt.oneFrame with outDrops := s.cnt.outDrops + 1#32 }, resp := r }
  | .error .invalidCommandType =>
    { s with rxbuf := rest, cnt := { s.cnt.oneFrame with mapErrCmdType := s.cnt.mapErrCmdType + 1#32 }, resp := r }
  | .error .invalidPayload =>
    { s with rxbuf := rest, cnt := { s.cnt.oneFrame with mapErrPayload := s.cnt.mapErrPayload + 1#32 }, resp := r }

/-- The frame TX_STEP appends for a Command, nothing for one the encoder rejects (R174). -/
def sentBytes (c : Command) : List Byte :=
  match c.cmdType with
  | [b] => wireFrame .le b Reserved.zero 0#3 c.payload
  | _ => []

/-- The sync pattern stands at index j (R102). -/
def syncAt (s : List Byte) (j : Nat) : Prop := s[j]? = some 0x55#8 ∧ s[j + 1]? = some 0xAA#8

/-- Bit k of byte i is flipped (R93). -/
def flipBit (f : List Byte) (i k : Nat) : List Byte := f.set i (byteAt f i ^^^ BitVec.twoPow 8 k)

/-- The instructions of the receive side (R20): what the RX engine does, and OUT_POP. -/
def isReceive : Instr → Bool
  | .setPositionRequest _ _ => false
  | .getPositionRequest => false
  | .setPositionAck _ => true
  | .positionReached _ _ _ => true
  | .getPositionResponse _ _ _ _ => true
  | .errorResponse _ _ _ => true
  | .checksum _ => false
  | .decodePass => true
  | .encode _ => false
  | .toEvent _ => false
  | .toCommand _ => false
  | .rxPush _ => true
  | .outPop => true
  | .txSubmitCmd _ => false
  | .txSubmitReq _ => false
  | .txStep => false
  | .statRead _ => false
  | .reset => false
  | .rxPushSeq _ => true

/-- The instructions that write nothing of the block: the pure functions and STAT_READ (R90, R130, R140, R151, R175). -/
def isPure : Instr → Bool
  | .setPositionRequest _ _ => false
  | .getPositionRequest => false
  | .setPositionAck _ => false
  | .positionReached _ _ _ => false
  | .getPositionResponse _ _ _ _ => false
  | .errorResponse _ _ _ => false
  | .checksum _ => true
  | .decodePass => false
  | .encode _ => true
  | .toEvent _ => true
  | .toCommand _ => true
  | .rxPush _ => false
  | .outPop => false
  | .txSubmitCmd _ => false
  | .txSubmitReq _ => false
  | .txStep => false
  | .statRead _ => true
  | .reset => false
  | .rxPushSeq _ => false

end Sys2Proof
end

