-- ==== Sys2Proof/Certificates/Slice0/Obligations.lean ====
section
/-! DEFINITION. The statements for the provers, by family: the checksum, the field encodings, the decode pass, the
encoder, the mapper, the ports, the messages, the frames of the two halves, the invariant, and the offered items. A
response (resp), a held submission (held) and the schedule are the model's own fields (log entries 7, 4 and 1). -/

open Sys2Proof Sys2Proof.Machine

/-! ### The checksum (spec/40_checksum.md) -/

/-- R90: the exclusive-or fold with seed 0, whatever the order of the bytes; CHECKSUM writes no state. -/
def Obligations.ChecksumFoldsXor : Prop :=
  (∀ (bs : List Byte) (s : State), exec (.checksum bs) s = .next { s with resp := .checksum (checksum bs) }) ∧
  checksum [] = 0#8 ∧
  (∀ b : Byte, checksum [b] = b) ∧
  (∀ (bs : List Byte) (b : Byte), checksum (bs ++ [b]) = checksum bs ^^^ b) ∧
  (∀ a b : List Byte, a.Perm b → checksum a = checksum b) ∧
  checksum [0x33#8, 0#8, 0#8, 0#8, 0#8, 0#8, 0#8] = 0x33#8

/-- R92: the checksum of bytes and their checksum is 0, so a frame is valid exactly when its bytes from offset 2 on,
checksum included, fold to 0. -/
def Obligations.ChecksumIsItsOwnInverse : Prop :=
  (∀ bs : List Byte, checksum (bs ++ [checksum bs]) = 0#8) ∧
  ∀ (f : List Byte) (flen : Nat), 3 ≤ flen → flen ≤ f.length →
    (frameValid f flen = true ↔ checksum (slice f 2 flen) = 0#8)

/-- R93 with the frame boundary fixed: one flipped bit after the sync bytes is detected; two flips of one bit position,
an exchange of two body bytes and a change of a sync byte are not. -/
def Obligations.ChecksumDetectsSingleFlips : Prop :=
  ∀ (f : List Byte), 10 ≤ f.length →
    (∀ i k, 2 ≤ i → i < f.length → k < 8 → frameValid f f.length = true →
      frameValid (flipBit f i k) f.length = false) ∧
    (∀ i j k, 2 ≤ i → i < f.length → 2 ≤ j → j < f.length → i ≠ j → k < 8 →
      frameValid (flipBit (flipBit f i k) j k) f.length = frameValid f f.length) ∧
    (∀ i j, 2 ≤ i → i < f.length - 1 → 2 ≤ j → j < f.length - 1 →
      frameValid ((f.set i (byteAt f j)).set j (byteAt f i)) f.length = frameValid f f.length) ∧
    (∀ i b, i < 2 → frameValid (f.set i b) f.length = frameValid f f.length)

/-! ### Field encodings (spec/30_encoding.md) -/

/-- R63 and R64: len_flags joined from the two bytes, and its two fields; this hardware's order is LE. -/
def Obligations.LenFlagsExtraction : Prop :=
  Config.lenOrder = .le ∧
  ∀ b7 b8 : Byte,
    (lenFlags .le b7 b8).toNat = b8.toNat * 256 + b7.toNat ∧
    payloadLen (lenFlags .le b7 b8) = b8.toNat % 32 * 256 + b7.toNat ∧
    (statusBits (lenFlags .le b7 b8)).toNat = b8.toNat / 32 ∧
    lenFlags .be b7 b8 = lenFlags .le b8 b7

/-- R65: the encoder's len_flags is the length masked to 13 bits, written low byte first under LE and swapped under BE,
and reading the two bytes back gives it again. -/
def Obligations.LenFlagsInsertion : Prop :=
  ∀ n : Nat,
    (lenFlagsOf 0#3 n).toNat = n % 8192 ∧
    lenFlagsBytes .le (lenFlagsOf 0#3 n) = [BitVec.ofNat 8 (n % 8192), BitVec.ofNat 8 (n % 8192 / 256)] ∧
    lenFlagsBytes .be (lenFlagsOf 0#3 n) = [BitVec.ofNat 8 (n % 8192 / 256), BitVec.ofNat 8 (n % 8192)] ∧
    ∀ (o : LenOrder) (b7 b8 : Byte), lenFlagsBytes o (lenFlagsOf 0#3 n) = [b7, b8] →
      lenFlags o b7 b8 = lenFlagsOf 0#3 n

/-- R67 and R68: the status codes 0 to 3 are themselves and 4 to 7 are Reserved; the cause bytes 0 to 7 keep their name
and code, and every other byte is UnspecifiedError with the code FF. R79: the result codes, none while held. -/
def Obligations.StatusCauseAndResultCodes : Prop :=
  (normStatus 0#3 = .unused ∧ normStatus 1#3 = .ok ∧ normStatus 2#3 = .okWithData ∧ normStatus 3#3 = .error ∧
    ∀ c : BitVec 3, 4 ≤ c.toNat → normStatus c = .reserved) ∧
  (normCause 0#8 = .success ∧ normCause 1#8 = .checksumError ∧ normCause 2#8 = .invalidArgument ∧
    normCause 3#8 = .operationFailed ∧ normCause 4#8 = .configNotFound ∧ normCause 5#8 = .internalError ∧
    normCause 6#8 = .stateMismatch ∧ normCause 7#8 = .noValidData) ∧
  (∀ b : Byte, 8 ≤ b.toNat → normCause b = .unspecifiedError) ∧
  (∀ b : Byte, causeCode (normCause b) = if b.toNat ≤ 7 then b else 0xFF#8) ∧
  Response.code .accepted = some 0 ∧ Response.code (.error .invalidCommandType) = some 1 ∧
  Response.code (.error .invalidPayload) = some 2 ∧ Response.code .held = none

/-- R75 and R76: the kind codes, the place of each field in the 83 bits, and 0 in a field the kind does not carry. -/
def Obligations.PortRecordLayout : Prop :=
  (∀ r : PortRecord,
    (recordBits r).extractLsb' 80 3 = r.kind ∧ (recordBits r).extractLsb' 48 32 = r.x ∧
    (recordBits r).extractLsb' 16 32 = r.y ∧ (recordBits r).extractLsb' 8 8 = r.flag ∧
    (recordBits r).extractLsb' 0 8 = r.cause ∧ recordOfBits (recordBits r) = r) ∧
  (∀ v : BitVec 83, recordBits (recordOfBits v) = v) ∧
  eventRecord .setPositionAck = ⟨1#3, 0#32, 0#32, 0#8, 0#8⟩ ∧
  (∀ x y, eventRecord (.positionReached x y) = ⟨2#3, x, y, 0#8, 0#8⟩) ∧
  (∀ x y f, eventRecord (.getPositionResponse x y f) = ⟨3#3, x, y, f, 0#8⟩) ∧
  (∀ c, eventRecord (.errorResponse c) = ⟨4#3, 0#32, 0#32, 0#8, causeCode c⟩) ∧
  (∀ x y, eventRecord (.setPositionRequest x y) = ⟨5#3, x, y, 0#8, 0#8⟩) ∧
  eventRecord .getPositionRequest = ⟨6#3, 0#32, 0#32, 0#8, 0#8⟩ ∧
  ∀ r : PortRecord, (r.kind = 0#3 ∨ r.kind = 7#3) → recordEvent r = none

/-- R80: no two message rows of the opcode table cover one key. -/
def Obligations.MessageRowsDisjoint : Prop :=
  ∀ r ∈ keyRows, ∀ q ∈ keyRows, ∀ key : Nat, r.covers key = true → q.covers key = true → r = q

/-! ### The decode pass (spec/41_decoder.md) -/

/-- R102: FindSync answers the least index at which the pattern stands, and none where it stands nowhere. -/
def Obligations.FindSyncIsLeast : Prop :=
  ∀ bs : List Byte,
    (findSync bs = none ↔ ∀ j, ¬ syncAt bs j) ∧
    ∀ i, findSync bs = some i ↔ syncAt bs i ∧ ∀ j, j < i → ¬ syncAt bs j

/-- R105, R109: a frame with a matching checksum at the head gives its Command, whatever its reserved bytes and status,
and the pass goes on with the bytes after it. -/
def Obligations.GoodFrameGivesCommand : Prop :=
  ∀ (o : LenOrder) (cmd : Byte) (rsv : Reserved) (st : BitVec 3) (p rest : List Byte), p.length ≤ 8191 →
    decodeFrames o (wireFrame o cmd rsv st p ++ rest) =
      ⟨⟨[cmd], some st, p⟩ :: (decodeFrames o rest).commands, (decodeFrames o rest).bad, (decodeFrames o rest).rest⟩

/-- R106: a frame with a wrong checksum at the head is removed whole and gives no Command. -/
def Obligations.CorruptFrameDiscardedWhole : Prop :=
  ∀ (o : LenOrder) (f t rest : List Byte), f = 0x55#8 :: 0xAA#8 :: t → 10 ≤ f.length → frameLenAt o f = f.length →
    frameValid f f.length = false →
    decodeFrames o (f ++ rest) =
      ⟨(decodeFrames o rest).commands, (decodeFrames o rest).bad + 1, (decodeFrames o rest).rest⟩

/-- R104, R114: a pass on a strict prefix of a frame produces nothing and removes nothing. -/
def Obligations.IncompleteFrameWaits : Prop :=
  ∀ (o : LenOrder) (cmd : Byte) (rsv : Reserved) (st : BitVec 3) (p : List Byte) (n : Nat), p.length ≤ 8191 →
    n < 10 + p.length →
    decodeFrames o ((wireFrame o cmd rsv st p).take n) = ⟨[], 0, (wireFrame o cmd rsv st p).take n⟩

/-- R103, R110: bytes without a sync are left as they are, and dropped once a sync follows them. -/
def Obligations.NoiseKeptThenDropped : Prop :=
  ∀ (o : LenOrder) (noise t : List Byte), findSync noise = none →
    decodeFrames o noise = ⟨[], 0, noise⟩ ∧
    decodeFrames o (noise ++ 0x55#8 :: 0xAA#8 :: t) = decodeFrames o (0x55#8 :: 0xAA#8 :: t)

/-- R107, R24: after a pass the buffer is a suffix of what it was, in phase HUNT, SYNC_HDR or SYNC_BODY; a sync-headed
one holds at most 8200 bytes; and another pass does nothing. -/
def Obligations.PassEndsSettled : Prop :=
  ∀ (o : LenOrder) (buf : List Byte),
    settled o (decodeFrames o buf).rest ∧
    (decodeFrames o buf).rest <:+ buf ∧
    (phase o (decodeFrames o buf).rest ≠ .hunt → (decodeFrames o buf).rest.length ≤ 8200) ∧
    decodeFrames o (decodeFrames o buf).rest = ⟨[], 0, (decodeFrames o buf).rest⟩

/-- R111: passes after any cuts of a stream give together what one pass on the whole stream gives. -/
def Obligations.ChunkingDoesNotMatter : Prop :=
  ∀ (o : LenOrder) (chunks : List (List Byte)), passes o [] chunks = decodeFrames o chunks.flatten

/-- R113: the overflow trim of a sync-free buffer changes no later Command and no later FRAMES_BAD. -/
def Obligations.TrimChangesNoOutput : Prop :=
  ∀ (o : LenOrder) (cap : Nat) (buf later : List Byte), findSync buf = none →
    (decodeFrames o (overflowTrim cap buf ++ later)).commands = (decodeFrames o (buf ++ later)).commands ∧
    (decodeFrames o (overflowTrim cap buf ++ later)).bad = (decodeFrames o (buf ++ later)).bad

/-- R112: a full RXBUF is cut to its last byte if that is 55, else to nothing, before the byte is appended; and between
passes a full RXBUF is in phase HUNT. -/
def Obligations.PushIntoFullBufferTrims : Prop :=
  (∀ (s : State) (b : Byte), s.rxbuf.length = 8201 →
    exec (.rxPush b) s =
      .next { s with rxbuf := if s.rxbuf[8200]? = some 0x55#8 then [0x55#8, b] else [b], resp := .nothing }) ∧
  ∀ (o : LenOrder) (buf : List Byte), settled o buf → buf.length = 8201 → phase o buf = .hunt

/-- R101: DECODE_PASS on a settled RXBUF gives no Command and changes nothing; a good frame before settled bytes is
consumed, counted, delivered and given back; a corrupt one is consumed and counted. That a pass of its own also delivers
is the model's reading: log entry 8. -/
def Obligations.DecodePassConsumesHead : Prop :=
  (∀ s : State, settled .le s.rxbuf → exec .decodePass s = .next { s with resp := .commands [] }) ∧
  (∀ (s : State) (cmd : Byte) (rsv : Reserved) (st : BitVec 3) (p rest : List Byte), p.length ≤ 8191 →
    s.rxbuf = wireFrame .le cmd rsv st p ++ rest → settled .le rest →
    exec .decodePass s =
      .next (received s rest ⟨[cmd], some st, p⟩ (.commands [⟨[cmd], some st, p⟩]))) ∧
  ∀ (s : State) (f t rest : List Byte), s.rxbuf = f ++ rest → f = 0x55#8 :: 0xAA#8 :: t → 10 ≤ f.length →
    frameLenAt .le f = f.length → frameValid f f.length = false → settled .le rest →
    exec .decodePass s =
      .next { s with rxbuf := rest, cnt := { s.cnt with framesBad := s.cnt.framesBad + 1#32 }, resp := .commands [] }

/-! ### The encoder (spec/42_encoder.md) -/

/-- R130, R131, R132, R134: the frame of a Command byte by byte, whatever its status; no bytes unless cmd_type is one
byte. -/
def Obligations.EncoderLayout : Prop :=
  (∀ (b : Byte) (st : Option (BitVec 3)) (p : List Byte) (s : State), p.length ≤ 8191 →
    ∃ lo hi : Byte, lo.toNat = p.length % 256 ∧ hi.toNat = p.length / 256 ∧
      exec (.encode ⟨[b], st, p⟩) s =
        .next { s with resp := .frame ([0x55#8, 0xAA#8, b, 0#8, 0#8, 0#8, 0#8, lo, hi] ++ (p ++
          [checksum ([b, 0#8, 0#8, 0#8, 0#8, lo, hi] ++ p)])) }) ∧
  ∀ (cmd : List Byte) (st : Option (BitVec 3)) (p : List Byte) (s : State), cmd.length ≠ 1 →
    exec (.encode ⟨cmd, st, p⟩) s = .next { s with resp := .error .invalidCommandType }

/-- R135: decoding an encoded Command gives it back with status 0 and leaves nothing. -/
def Obligations.CodecRoundTrip : Prop :=
  ∀ (o : LenOrder) (b : Byte) (st : Option (BitVec 3)) (p : List Byte), p.length ≤ 8191 →
    ∃ f, encodeFrame o ⟨[b], st, p⟩ = .ok f ∧ f.length = 10 + p.length ∧
      decodeFrames o f = ⟨[⟨[b], some 0#3, p⟩], 0, []⟩

/-! ### The mapper (spec/43_mapper.md) -/

/-- R143 and the test before it (R141): an absent status fails first; a status of Error beats every cmd_type. -/
def Obligations.ErrorStatusBeatsCommand : Prop :=
  ∀ (cmd p : List Byte) (s : State),
    exec (.toEvent ⟨cmd, none, p⟩) s = .next { s with resp := .error .invalidPayload } ∧
    (∀ b : Byte, exec (.toEvent ⟨cmd, some 3#3, [b]⟩) s = .next { s with resp := .mapped (.errorResponse (normCause b)) }) ∧
    (p.length ≠ 1 → exec (.toEvent ⟨cmd, some 3#3, p⟩) s = .next { s with resp := .error .invalidPayload })

/-- R144: command 0x91 for every status but Error. -/
def Obligations.CommandNinetyOne : Prop :=
  ∀ (p : List Byte) (s : State),
    exec (.toEvent ⟨[0x91#8], some 1#3, []⟩) s = .next { s with resp := .mapped .setPositionAck } ∧
    (p.length ≠ 0 → exec (.toEvent ⟨[0x91#8], some 1#3, p⟩) s = .next { s with resp := .error .invalidPayload }) ∧
    (∀ x0 x1 x2 x3 y0 y1 y2 y3 : Byte,
      exec (.toEvent ⟨[0x91#8], some 2#3, [x0, x1, x2, x3, y0, y1, y2, y3]⟩) s =
        .next { s with resp := .mapped (.positionReached (x3 ++ x2 ++ x1 ++ x0) (y3 ++ y2 ++ y1 ++ y0)) }) ∧
    (p.length ≠ 8 → exec (.toEvent ⟨[0x91#8], some 2#3, p⟩) s = .next { s with resp := .error .invalidPayload }) ∧
    ∀ st : BitVec 3, st ≠ 1#3 → st ≠ 2#3 → st ≠ 3#3 →
      exec (.toEvent ⟨[0x91#8], some st, p⟩) s = .next { s with resp := .error .invalidPayload }

/-- R145, R149: command 0x93 for every status but Error; the flag byte is copied. -/
def Obligations.CommandNinetyThree : Prop :=
  ∀ (p : List Byte) (s : State),
    (∀ x0 x1 x2 x3 y0 y1 y2 y3 f : Byte,
      exec (.toEvent ⟨[0x93#8], some 2#3, [x0, x1, x2, x3, y0, y1, y2, y3, f]⟩) s =
        .next { s with resp := .mapped (.getPositionResponse (x3 ++ x2 ++ x1 ++ x0) (y3 ++ y2 ++ y1 ++ y0) f) }) ∧
    (p.length ≠ 9 → exec (.toEvent ⟨[0x93#8], some 2#3, p⟩) s = .next { s with resp := .error .invalidPayload }) ∧
    ∀ st : BitVec 3, st ≠ 2#3 → st ≠ 3#3 →
      exec (.toEvent ⟨[0x93#8], some st, p⟩) s = .next { s with resp := .error .invalidPayload }

/-- R146, R150: any other cmd_type, compared as a whole sequence, with a status that is not Error. -/
def Obligations.OtherCommandRejected : Prop :=
  ∀ (cmd p : List Byte) (st : BitVec 3) (s : State), cmd ≠ [0x91#8] → cmd ≠ [0x93#8] → st ≠ 3#3 →
    exec (.toEvent ⟨cmd, some st, p⟩) s = .next { s with resp := .error .invalidCommandType }

/-- R151 to R154: the two request kinds of a record map to their Commands, every other kind (0 and 7 included) fails. -/
def Obligations.RequestMapper : Prop :=
  ∀ (r : PortRecord) (s : State),
    (r.kind = 5#3 → exec (.toCommand r) s =
      .next { s with resp := .command ⟨[0x31#8], none, leBytes32 r.x ++ leBytes32 r.y⟩ }) ∧
    (r.kind = 6#3 → exec (.toCommand r) s = .next { s with resp := .command ⟨[0x33#8], none, []⟩ }) ∧
    (r.kind ≠ 5#3 → r.kind ≠ 6#3 → exec (.toCommand r) s = .next { s with resp := .error .invalidCommandType })

/-- R148, R149: every pair of 32-bit patterns written as a payload comes back bit for bit in the Event, and
the flag byte as it is. -/
def Obligations.FloatFieldsBitForBit : Prop :=
  ∀ (x y : Word32) (f : Byte) (s : State),
    exec (.toEvent ⟨[0x91#8], some 2#3, leBytes32 x ++ leBytes32 y⟩) s =
      .next { s with resp := .mapped (.positionReached x y) } ∧
    exec (.toEvent ⟨[0x93#8], some 2#3, leBytes32 x ++ leBytes32 y ++ [f]⟩) s =
      .next { s with resp := .mapped (.getPositionResponse x y f) }

/-! ### The ports (spec/44_ports.md, spec/70_reset_and_hazards.md) -/

/-- R170, R116: RX_PUSH between passes. RXBUF becomes what the pass leaves, and at most one Event enters OUTQ, or one of
the counters 1 to 4 goes up, or neither; everything else of the block stays. -/
def Obligations.PushByteOutcome : Prop :=
  ∀ (s : State) (b : Byte), settled .le s.rxbuf →
    ∃ t, exec (.rxPush b) s = .next t ∧
      t.rxbuf = (decodeFrames .le (overflowTrim 8201 s.rxbuf ++ [b])).rest ∧ t.resp = .nothing ∧
      SameTxSide s t ∧ SameRest s t ∧ t.held = s.held ∧
      ((t.outq = s.outq ∧ t.cnt = s.cnt) ∨
       (t.outq = s.outq ∧ t.cnt = { s.cnt with framesBad := s.cnt.framesBad + 1#32 }) ∨
       (∃ e, deviceOriginated e = true ∧ s.outq.length < 10 ∧ t.outq = s.outq ++ [e] ∧ t.cnt = s.cnt.oneFrame) ∨
       (10 ≤ s.outq.length ∧ t.outq = s.outq ∧
         t.cnt = { s.cnt.oneFrame with outDrops := s.cnt.outDrops + 1#32 }) ∨
       (t.outq = s.outq ∧ t.cnt = { s.cnt.oneFrame with mapErrCmdType := s.cnt.mapErrCmdType + 1#32 }) ∨
       (t.outq = s.outq ∧ t.cnt = { s.cnt.oneFrame with mapErrPayload := s.cnt.mapErrPayload + 1#32 }))

/-- R81: RX_PUSH_SEQ is RX_PUSH of its first byte and then RX_PUSH_SEQ of the others. -/
def Obligations.PushSequenceExpands : Prop :=
  ∀ (s : State) (b : Byte) (bs : List Byte),
    exec (.rxPushSeq [b]) s = exec (.rxPush b) s ∧
    (bs ≠ [] → ∃ t, exec (.rxPush b) s = .next t ∧ exec (.rxPushSeq (b :: bs)) s = exec (.rxPushSeq bs) t)

/-- R100, R111 on the block: pushing bytes one by one does what appending them all and running one decode pass does, as
long as no overflow trim falls between. DECODE_PASS as a step of its own: log entry 8. -/
def Obligations.PushSequenceIsOnePass : Prop :=
  ∀ (s : State) (bs : List Byte), settled .le s.rxbuf → s.rxbuf.length + bs.length ≤ 8201 →
    ∃ t, exec .decodePass { s with rxbuf := s.rxbuf ++ bs } = .next t ∧
      exec (.rxPushSeq bs) s = .next { t with resp := .nothing }

/-- R170, R105, R108: a whole frame pushed byte by byte into any sync-free RXBUF is received, whatever its kind. -/
def Obligations.FrameFromHuntIsReceived : Prop :=
  ∀ (s : State) (cmd : Byte) (rsv : Reserved) (st : BitVec 3) (p : List Byte), phase .le s.rxbuf = .hunt →
    p.length ≤ 8191 →
    exec (.rxPushSeq (wireFrame .le cmd rsv st p)) s = .next (received s [] ⟨[cmd], some st, p⟩ .nothing)

/-- R171: OUT_POP gives the head of OUTQ and removes it, or the all-zero record of kind 0. -/
def Obligations.OutPopTakesHead : Prop :=
  ∀ s : State,
    (s.outq = [] → exec .outPop s = .next { s with resp := .event ⟨0#3, 0#32, 0#32, 0#8, 0#8⟩ }) ∧
    ∀ (e : Event) (rest : List Event), s.outq = e :: rest →
      exec .outPop s = .next { s with outq := rest, resp := .event (eventRecord e) }

/-- R172: with room in TXQ the record's Command enters at the tail, its cmd_type unchecked, and the answer is OK. With
status_present = 0 the Command has no status, whatever the record's status bits: the model's choice, log entry 23. -/
def Obligations.SubmitCommandQueues : Prop :=
  ∀ (cmd p : List Byte) (present : Bool) (st : BitVec 3) (s : State), s.txq.length < 10 →
    exec (.txSubmitCmd ⟨cmd, present, st, p⟩) s =
      .next { s with txq := s.txq ++ [⟨cmd, if present then some st else none, p⟩], resp := .accepted }

/-- R173: with room in TXQ a request of kind 5 or 6 queues its Command, and every other kind is answered
InvalidCommandType with nothing queued. -/
def Obligations.SubmitRequestQueues : Prop :=
  ∀ (r : PortRecord) (s : State), s.txq.length < 10 →
    (r.kind = 5#3 → exec (.txSubmitReq r) s =
      .next { s with txq := s.txq ++ [⟨[0x31#8], none, leBytes32 r.x ++ leBytes32 r.y⟩], resp := .accepted }) ∧
    (r.kind = 6#3 → exec (.txSubmitReq r) s =
      .next { s with txq := s.txq ++ [⟨[0x33#8], none, []⟩], resp := .accepted }) ∧
    (r.kind ≠ 5#3 → r.kind ≠ 6#3 → exec (.txSubmitReq r) s = .next { s with resp := .error .invalidCommandType })

/-- A submission to a full TXQ changes nothing of the block and is held (R172, R173). That the model holds it in the
field held is its own choice: log entry 4. -/
def Obligations.FullQueueHoldsSubmission : Prop :=
  ∀ (i : Instr) (s : State), isSubmission i = true → 10 ≤ s.txq.length →
    exec i s = .next { s with held := some i, resp := .held }

/-- A transaction that is not enabled changes nothing of the block: a submission with no room in TXQ, or TX_STEP with
nothing queued (R172, R173, R174, R179). What the model does instead of having no step is its own: log entries 4 and 5. -/
def Obligations.DisabledTransactionChangesNothing : Prop :=
  ∀ (i : Instr) (s : State), enabled i s = false →
    ∃ t, exec i s = .next t ∧ t.rxbuf = s.rxbuf ∧ t.outq = s.outq ∧ t.txq = s.txq ∧ t.txout = s.txout ∧
      t.cnt = s.cnt ∧ t.schedule = s.schedule

/-- A held submission is lifted by one TX_STEP (R172, R177): an offered Command finds TXQ full, TX_STEP frees an entry,
and the Command then enters. The three steps are the model's own scheduling: log entries 1 and 4. -/
def Obligations.HeldSubmissionIsLifted : Prop :=
  ∀ (s : State) (r : CommandRecord) (d : Command) (ds : List Command) (rest : List Byte),
    s.held = none → s.txq = d :: ds → s.txq.length = 10 → (Instr.txSubmitCmd r).wellFormed = true →
    s.schedule = encode (.txSubmitCmd r) ++ (encode .txStep ++ rest) →
    ∃ t u v, step s = .next t ∧ step t = .next u ∧ step u = .next v ∧
      t.txq = s.txq ∧ t.txout = s.txout ∧ u.txq = ds ∧ u.txout = s.txout ++ sentBytes d ∧
      v.txq = ds ++ [r.command] ∧ v.txout = u.txout ∧ v.held = none ∧ v.resp = .accepted ∧ v.schedule = rest

/-- R174: TX_STEP takes the head of TXQ; its frame is appended to TXOUT and counted, or its encode failure is counted and
no byte appears. -/
def Obligations.TxStepSendsHead : Prop :=
  ∀ (s : State) (c : Command) (rest : List Command), s.txq = c :: rest →
    (∀ b : Byte, c.cmdType = [b] →
      exec .txStep s = .next { s with
        txq := rest, txout := s.txout ++ wireFrame .le b Reserved.zero 0#3 c.payload,
        cnt := { s.cnt with txFrames := s.cnt.txFrames + 1#32 } }) ∧
    (c.cmdType.length ≠ 1 →
      exec .txStep s = .next { s with txq := rest, cnt := { s.cnt with txEncErr := s.cnt.txEncErr + 1#32 } })

/-- With nothing offered and nothing held, as many steps as TXQ has Commands empty it, and TXOUT has grown by their
frames in queue order (R51, R174, R179). That the TX engine steps by itself then is the model's choice: log entry 6. -/
def Obligations.QueueDrainsInOrder : Prop :=
  ∀ s : State, s.held = none → s.schedule = [] →
    Sys2Proof.core.run s.txq.length s = .next { s with
      txq := [], txout := s.txout ++ s.txq.flatMap sentBytes,
      cnt := { s.cnt with
        txFrames := s.cnt.txFrames + BitVec.ofNat 32 (s.txq.filter (fun c => c.cmdType.length == 1)).length,
        txEncErr := s.cnt.txEncErr + BitVec.ofNat 32 (s.txq.filter (fun c => c.cmdType.length != 1)).length } }

/-- R175: STAT_READ gives each counter by its number, 0 for number 7, and changes nothing. -/
def Obligations.StatReadGivesCounter : Prop :=
  ∀ s : State,
    exec (.statRead 0#3) s = .next { s with resp := .counter s.cnt.framesOk } ∧
    exec (.statRead 1#3) s = .next { s with resp := .counter s.cnt.framesBad } ∧
    exec (.statRead 2#3) s = .next { s with resp := .counter s.cnt.mapErrCmdType } ∧
    exec (.statRead 3#3) s = .next { s with resp := .counter s.cnt.mapErrPayload } ∧
    exec (.statRead 4#3) s = .next { s with resp := .counter s.cnt.outDrops } ∧
    exec (.statRead 5#3) s = .next { s with resp := .counter s.cnt.txFrames } ∧
    exec (.statRead 6#3) s = .next { s with resp := .counter s.cnt.txEncErr } ∧
    exec (.statRead 7#3) s = .next { s with resp := .counter 0#32 }

/-- R220: RESET empties the three buffers, zeroes the eight counters and leaves TXOUT. -/
def Obligations.ResetClearsBlock : Prop :=
  ∀ s : State, exec .reset s = .next { s with
    rxbuf := [], outq := [], txq := [], cnt := ⟨0#32, 0#32, 0#32, 0#32, 0#32, 0#32, 0#32, 0#32⟩, resp := .nothing }

/-- R29: each of the seven counters goes from FFFFFFFF to 0 and sets nothing: a lost Event and a mapping error count their
good frame beside, and no other counter moves. The FRAMES_OK clause takes SetPositionAck as its frame arriving: log entry
3. -/
def Obligations.CountersWrap : Prop :=
  (∀ (s : State) (b : Byte) (st : Option (BitVec 3)) (p : List Byte) (rest : List Command),
    s.txq = ⟨[b], st, p⟩ :: rest → s.cnt.txFrames = 0xFFFFFFFF#32 →
    ∃ t, exec .txStep s = .next t ∧ t.cnt = { s.cnt with txFrames := 0#32 }) ∧
  (∀ (s : State) (c : Command) (rest : List Command), s.txq = c :: rest → c.cmdType.length ≠ 1 →
    s.cnt.txEncErr = 0xFFFFFFFF#32 → ∃ t, exec .txStep s = .next t ∧ t.cnt = { s.cnt with txEncErr := 0#32 }) ∧
  (∀ (s : State) (rsv : Reserved), s.rxbuf = [] → s.outq = [] → s.cnt.framesOk = 0xFFFFFFFF#32 →
    ∃ t, exec (.setPositionAck rsv) s = .next t ∧ t.cnt = { s.cnt with framesOk := 0#32 }) ∧
  (∀ (s : State) (f b : List Byte), s.rxbuf = [] → f = 0x55#8 :: 0xAA#8 :: b → 10 ≤ f.length →
    frameLenAt .le f = f.length → frameValid f f.length = false → s.cnt.framesBad = 0xFFFFFFFF#32 →
    ∃ t, exec (.rxPushSeq f) s = .next t ∧ t.cnt = { s.cnt with framesBad := 0#32 }) ∧
  (∀ (s : State) (cmd : Byte) (rsv : Reserved) (st : BitVec 3) (p : List Byte), s.rxbuf = [] → p.length ≤ 8191 →
    toEvent ⟨[cmd], some st, p⟩ = .error .invalidCommandType → s.cnt.mapErrCmdType = 0xFFFFFFFF#32 →
    ∃ t, exec (.rxPushSeq (wireFrame .le cmd rsv st p)) s = .next t ∧
      t.cnt = { s.cnt.oneFrame with mapErrCmdType := 0#32 }) ∧
  (∀ (s : State) (cmd : Byte) (rsv : Reserved) (st : BitVec 3) (p : List Byte), s.rxbuf = [] → p.length ≤ 8191 →
    toEvent ⟨[cmd], some st, p⟩ = .error .invalidPayload → s.cnt.mapErrPayload = 0xFFFFFFFF#32 →
    ∃ t, exec (.rxPushSeq (wireFrame .le cmd rsv st p)) s = .next t ∧
      t.cnt = { s.cnt.oneFrame with mapErrPayload := 0#32 }) ∧
  ∀ (s : State) (cmd : Byte) (rsv : Reserved) (st : BitVec 3) (p : List Byte) (e : Event), s.rxbuf = [] →
    p.length ≤ 8191 → toEvent ⟨[cmd], some st, p⟩ = .ok e → 10 ≤ s.outq.length → s.cnt.outDrops = 0xFFFFFFFF#32 →
    ∃ t, exec (.rxPushSeq (wireFrame .le cmd rsv st p)) s = .next t ∧
      t.cnt = { s.cnt.oneFrame with outDrops := 0#32 }

/-! ### The messages (spec/30_encoding.md R71) -/

/-- R71, R108, R227: a device message is its frame pushed byte by byte, whatever RXBUF holds (R226: the tail of a frame
that RXBUF waits for included); one that arrives while RXBUF holds no sync puts its Event at the tail of OUTQ, or is lost
and counted when OUTQ is full. That a device message is its frame arriving is the model's reading: log entry 3. -/
def Obligations.DeviceMessageDelivered : Prop :=
  ∀ (i : Instr) (e : Event) (s : State), messageEvent i = some e →
    exec i s = exec (.rxPushSeq (encode i)) s ∧
    (phase .le s.rxbuf = .hunt → s.outq.length < 10 → exec i s =
      .next { s with rxbuf := [], outq := s.outq ++ [e], cnt := s.cnt.oneFrame, resp := .nothing }) ∧
    (phase .le s.rxbuf = .hunt → 10 ≤ s.outq.length → exec i s =
      .next { s with
        rxbuf := [], cnt := { s.cnt.oneFrame with outDrops := s.cnt.outDrops + 1#32 }, resp := .nothing })

/-- R50: device messages back to back put their Events into OUTQ in the order of the stream. -/
def Obligations.ReceiveOrderPreserved : Prop :=
  ∀ (s : State) (ms : List Instr) (es : List Event), ms.map messageEvent = es.map some → ms ≠ [] →
    phase .le s.rxbuf = .hunt → s.outq.length + es.length ≤ 10 →
    exec (.rxPushSeq (ms.flatMap encode)) s = .next { s with
      rxbuf := [], outq := s.outq ++ es,
      cnt := { s.cnt with framesOk := s.cnt.framesOk + BitVec.ofNat 32 es.length }, resp := .nothing }

/-- R152, R153: with room in TXQ a request message queues its Command. That a request message is its submission is the
model's reading: log entry 3. -/
def Obligations.RequestMessageQueues : Prop :=
  ∀ (x y : Word32) (s : State), s.txq.length < 10 →
    exec (.setPositionRequest x y) s =
      .next { s with txq := s.txq ++ [⟨[0x31#8], none, leBytes32 x ++ leBytes32 y⟩], resp := .accepted } ∧
    exec .getPositionRequest s = .next { s with txq := s.txq ++ [⟨[0x33#8], none, []⟩], resp := .accepted }

/-- The bytes TX_STEP appends for a request are the request's own frame (R71, R130, R174). That a request message is its
submission is the model's reading: log entry 3. -/
def Obligations.RequestFrameIsSent : Prop :=
  ∀ (i : Instr) (s : State), (i = .getPositionRequest ∨ ∃ x y, i = .setPositionRequest x y) → s.txq = [] →
    ∃ t u, exec i s = .next t ∧ exec .txStep t = .next u ∧ u.txq = [] ∧ u.txout = s.txout ++ encode i ∧
      u.cnt = { s.cnt with txFrames := s.cnt.txFrames + 1#32 } ∧ SameRxSide s u

/-- R147: a request's frame on the receive side passes the checksum and is rejected as InvalidCommandType. -/
def Obligations.RequestFrameRejectedOnReceive : Prop :=
  ∀ (i : Instr) (s : State), (i = .getPositionRequest ∨ ∃ x y, i = .setPositionRequest x y) →
    phase .le s.rxbuf = .hunt →
    exec (.rxPushSeq (encode i)) s = .next { s with
      rxbuf := [], cnt := { s.cnt.oneFrame with mapErrCmdType := s.cnt.mapErrCmdType + 1#32 }, resp := .nothing }

/-- R226, R114: after a header with payload length n, up to n more bytes of any kind stay in RXBUF and have no other
effect, sync patterns and whole frames among them included. -/
def Obligations.HeadOfLineWait : Prop :=
  ∀ (s : State) (cmd : Byte) (rsv : Reserved) (st : BitVec 3) (p later : List Byte), s.rxbuf = [] →
    p.length ≤ 8191 → later.length ≤ p.length →
    exec (.rxPushSeq ((wireFrame .le cmd rsv st p).take 9 ++ later)) s =
      .next { s with rxbuf := (wireFrame .le cmd rsv st p).take 9 ++ later, resp := .nothing }

/-! ### The two halves of the block (spec/10_state.md R20, spec/20_memory.md R52) -/

/-- The frame of the receive side: TXQ, TXOUT, counters 5 to 7, a held submission and the schedule stay. Device
messages and DECODE_PASS are among it by log entries 3 and 8. -/
def Obligations.ReceiveLeavesTransmitSide : Prop :=
  ∀ (i : Instr) (s : State), isReceive i = true →
    ∃ t, exec i s = .next t ∧ SameTxSide s t ∧ SameRest s t ∧ t.held = s.held

/-- The frame of the transmit side: RXBUF, OUTQ, counters 0 to 4 and 7 and the schedule stay; TX_STEP also leaves the
answer and the held submission, and a submission leaves TXOUT and every counter (log entries 3, 4, 5 and 7). -/
def Obligations.TransmitLeavesReceiveSide : Prop :=
  ∀ s : State,
    (∃ t, exec .txStep s = .next t ∧ SameRxSide s t ∧ SameRest s t ∧ t.resp = s.resp ∧ t.held = s.held) ∧
    ∀ i : Instr, isSubmission i = true →
      ∃ t, exec i s = .next t ∧ SameRxSide s t ∧ SameRest s t ∧ t.txout = s.txout ∧ t.cnt = s.cnt

/-- The pure functions and STAT_READ change nothing but the answer (R48, R90, R130, R140, R151, R175). A function as a
step of its own is the model's choice: log entry 9. -/
def Obligations.PureChangesOnlyAnswer : Prop :=
  ∀ (i : Instr) (s : State), isPure i = true → ∃ r, exec i s = .next { s with resp := r }

/-- R52: a receive transaction and TX_STEP may occur in either order with one result. That TX_STEP answers with TXQ empty
is log entry 5, and that device messages and DECODE_PASS are receive transactions log entries 3 and 8. -/
def Obligations.ReceiveAndTxStepCommute : Prop :=
  ∀ (i : Instr) (s : State), isReceive i = true →
    ∃ t u v, exec i s = .next t ∧ exec .txStep t = .next u ∧ exec .txStep s = .next v ∧ exec i v = .next u

/-- R20: what the receive side does and answers depends on the receive side alone. Device messages and DECODE_PASS are
among it by log entries 3 and 8. -/
def Obligations.ReceiveBlindToTransmit : Prop :=
  ∀ (i : Instr) (s t : State), isReceive i = true → SameRxSide s t →
    ∃ s' t', exec i s = .next s' ∧ exec i t = .next t' ∧ SameRxSide s' t' ∧ s'.resp = t'.resp

/-! ### The invariant and the step -/

/-- The state after RESET meets the invariant. -/
def Obligations.ResetMeetsInvariant : Prop := Inv State.reset

/-- Every step keeps the invariant: RXBUF within RX_CAP and without a complete frame, both queues within their depth, only
device Events in OUTQ, only presentable Commands in TXQ, counter 7 zero, only submissions held. -/
def Obligations.StepKeepsInvariant : Prop :=
  ∀ s t : State, Inv s → step s = .next t → Inv t

/-- A step runs the item at the head of the schedule, with the schedule moved past it. A held submission enters once TXQ
has room; until then every other item still runs, and before another submission the TX engine steps (R172). A whole
frame that is no message of the map arrives at the receive port byte by byte; other bytes that are no item are refused,
records beyond the bounds of R78 as not presentable. The schedule, its bytes and held are the model's own: log entries 1,
2, 4 and 18. -/
def Obligations.StepRunsOfferedItem : Prop :=
  ∀ s : State,
    (∀ (i : Instr) (rest : List Byte), decode s.schedule = .ok i rest → s.held = none →
      step s = exec i { s with schedule := rest }) ∧
    (∀ (i j : Instr) (rest : List Byte), decode s.schedule = .ok i rest → s.held = some j → 10 ≤ s.txq.length →
      step s = if isSubmission i then exec .txStep s else exec i { s with schedule := rest }) ∧
    (∀ j : Instr, s.held = some j → s.txq.length < 10 → step s = exec j { s with held := none }) ∧
    ∀ e : DecodeError, s.schedule ≠ [] → decode s.schedule = .bad e → s.held = none ∨ 10 ≤ s.txq.length →
      (∀ f rest : List Byte, 10 ≤ f.length → syncAt f 0 → frameLenAt .le f = f.length → s.schedule = f ++ rest →
        step s = exec (.rxPushSeq f) { s with schedule := rest }) ∧
      ((∀ f rest : List Byte, 10 ≤ f.length → syncAt f 0 → frameLenAt .le f = f.length → s.schedule ≠ f ++ rest) →
        step s = .refused (if e.overBounds then .notPresentable e else .notAnItem e))

/-- R179: a quiescent block stays as it is. That a step then changes nothing is the model's choice: log entry 6. -/
def Obligations.QuiescentBlockStays : Prop := ∀ s : State, quiescent s → step s = .next s

/-- R200, R203: every instruction answers a next state in every state, and a step is refused only over bytes that are no
item. That a submission to a full TXQ and a TX_STEP with TXQ empty, for which the spec has no step, answer too is the
model's choice: log entries 4 and 5; the schedule and its bytes: log entries 1 and 18. -/
def Obligations.EveryTransactionAnswers : Prop :=
  (∀ (i : Instr) (s : State), ∃ t, exec i s = .next t) ∧
  ∀ (s : State) (r : Refusal), step s = .refused r →
    s.schedule ≠ [] ∧ ∃ e, decode s.schedule = .bad e ∧
      r = if e.overBounds then .notPresentable e else .notAnItem e

/-! ### Offered items -/

/-- Decoding an encoded instruction gives it back with the bytes after it, for every presentable instruction. The bytes
of items that are no frame are the model's own: log entry 2. -/
def Obligations.DecodeOfEncode : Prop :=
  ∀ (i : Instr) (rest : List Byte), i.wellFormed = true → decode (encode i ++ rest) = .ok i rest

/-- What decodes is presentable, and the bytes are its encoding: no two readings and no ignored bit (log entry
2). -/
def Obligations.EncodeOfDecode : Prop :=
  ∀ (bs rest : List Byte) (i : Instr), decode bs = .ok i rest → i.wellFormed = true ∧ bs = encode i ++ rest

/-- Frames written out from R60 and spec/95_test_vectors.md V-SRC-1 and V-SRC-5 decode to the messages they stand for. -/
def Obligations.FramesReadAsMessages : Prop :=
  decode [0x55, 0xAA, 0x31, 0, 0, 0, 0, 8, 0, 0, 0, 0x80, 0x3F, 0, 0, 0, 0x40, 0xC6] =
    .ok (.setPositionRequest 0x3F800000#32 0x40000000#32) [] ∧
  decode [0x55, 0xAA, 0x91, 0, 0, 0, 0, 0, 0x20, 0xB1] = .ok (.setPositionAck Reserved.zero) [] ∧
  decode [0x55, 0xAA, 0x91, 0, 0, 0, 0, 1, 0x60, 1, 0xF1] = .ok (.errorResponse 0x91#8 Reserved.zero 1#8) []
end

