-- ==== Sys2Proof/Laws/Bytes.lean ====
section
/-! SUPPORT. Byte sequences: the checksum as an algebra of exclusive or (spec/40_checksum.md), the 32-bit fields
(spec/00_scope.md R13), len_flags (spec/30_encoding.md R63, R65) and the shape of a whole frame (R60). -/

namespace Sys2Proof.Machine

/-! ### The checksum -/

theorem checksum_fold (s : List Byte) (a : Byte) : s.foldl (fun acc b => acc ^^^ b) a = a ^^^ checksum s := by
  unfold checksum
  induction s generalizing a with
  | nil => simp
  | cons b s ih =>
    simp only [List.foldl_cons]
    rw [ih (a ^^^ b), ih (0#8 ^^^ b)]
    simp [BitVec.xor_assoc]

@[simp] theorem checksum_nil : checksum [] = 0#8 := rfl

@[simp] theorem checksum_cons (b : Byte) (s : List Byte) : checksum (b :: s) = b ^^^ checksum s := by
  rw [checksum, List.foldl_cons, checksum_fold]
  simp

@[simp] theorem checksum_append (s t : List Byte) : checksum (s ++ t) = checksum s ^^^ checksum t := by
  induction s with
  | nil => simp
  | cons b s ih => simp [ih, BitVec.xor_assoc]

/-! ### 32-bit fields -/

theorem leWord_leBytes (v : Word32) :
    leWord (v.extractLsb' 0 8) (v.extractLsb' 8 8) (v.extractLsb' 16 8) (v.extractLsb' 24 8) = v := by
  apply BitVec.eq_of_getLsbD_eq
  intro i hi
  simp only [leWord, BitVec.getLsbD_append, BitVec.getLsbD_extractLsb']
  interval_cases i <;> simp

@[simp] theorem leBytes32_length (v : Word32) : (leBytes32 v).length = 4 := rfl

theorem leU32_leBytes (v : Word32) (t : List Byte) : leU32 (leBytes32 v ++ t) 0 = v := by
  simpa [leU32, leBytes32, byteAt] using leWord_leBytes v

theorem leU32_leBytes_four (v w : Word32) (t : List Byte) : leU32 (leBytes32 v ++ (leBytes32 w ++ t)) 4 = w := by
  simpa [leU32, leBytes32, byteAt] using leWord_leBytes w

theorem leBytes_leWord (b0 b1 b2 b3 : Byte) : leBytes32 (leWord b0 b1 b2 b3) = [b0, b1, b2, b3] := by
  simp only [leBytes32, leWord, List.cons.injEq, and_true]
  refine ⟨?_, ?_, ?_, ?_⟩ <;>
  · apply BitVec.eq_of_getLsbD_eq
    intro i hi
    simp only [BitVec.getLsbD_append, BitVec.getLsbD_extractLsb']
    interval_cases i <;> simp

/-! ### len_flags -/

theorem payloadLen_le (lf : BitVec 16) : payloadLen lf ≤ 8191 := by
  have := (lf.extractLsb' 0 13).isLt
  simp only [payloadLen]
  omega

theorem payloadLen_lenFlagsOf (st : BitVec 3) (n : Nat) (h : n ≤ 8191) : payloadLen (lenFlagsOf st n) = n := by
  have e : (lenFlagsOf st n).extractLsb' 0 13 = BitVec.ofNat 13 n := by
    apply BitVec.eq_of_getLsbD_eq
    intro i hi
    simp only [lenFlagsOf, BitVec.getLsbD_append, BitVec.getLsbD_extractLsb']
    simp [hi]
  rw [payloadLen, e, BitVec.toNat_ofNat]
  omega

theorem statusBits_lenFlagsOf (st : BitVec 3) (n : Nat) : statusBits (lenFlagsOf st n) = st := by
  apply BitVec.eq_of_getLsbD_eq
  intro i hi
  simp only [statusBits, lenFlagsOf, BitVec.getLsbD_append, BitVec.getLsbD_extractLsb']
  simp [hi]

/-- The bytes at offsets 7 and 8. -/
theorem lenFlagsBytes_spec (o : LenOrder) (lf : BitVec 16) :
    ∃ b7 b8, lenFlagsBytes o lf = [b7, b8] ∧ lenFlags o b7 b8 = lf := by
  cases o <;> refine ⟨_, _, rfl, ?_⟩ <;>
  · apply BitVec.eq_of_getLsbD_eq
    intro i hi
    simp only [lenFlags, BitVec.getLsbD_append, BitVec.getLsbD_extractLsb']
    interval_cases i <;> simp

theorem lenFlags_split (o : LenOrder) (b7 b8 : Byte) : lenFlagsBytes o (lenFlags o b7 b8) = [b7, b8] := by
  cases o <;> simp only [lenFlagsBytes, lenFlags, List.cons.injEq, and_true] <;> refine ⟨?_, ?_⟩ <;>
  · apply BitVec.eq_of_getLsbD_eq
    intro i hi
    simp only [BitVec.getLsbD_append, BitVec.getLsbD_extractLsb']
    interval_cases i <;> simp

theorem lenFlagsOf_parts (lf : BitVec 16) : lenFlagsOf (statusBits lf) (payloadLen lf) = lf := by
  apply BitVec.eq_of_getLsbD_eq
  intro i hi
  simp only [lenFlagsOf, statusBits, payloadLen, BitVec.getLsbD_append, BitVec.ofNat_toNat, BitVec.setWidth_eq,
    BitVec.getLsbD_extractLsb']
  interval_cases i <;> simp

/-! ### A whole frame -/

/-- A frame byte by byte: its header, its payload, the checksum of everything between. -/
theorem wireFrame_shape (o : LenOrder) (cmd : Byte) (rsv : Reserved) (st : BitVec 3) (p : List Byte) :
    ∃ b7 b8, lenFlags o b7 b8 = lenFlagsOf st p.length ∧
      wireFrame o cmd rsv st p =
        [0x55#8, 0xAA#8, cmd, rsv.b3, rsv.b4, rsv.b5, rsv.b6, b7, b8] ++ (p ++
          [checksum (cmd :: rsv.b3 :: rsv.b4 :: rsv.b5 :: rsv.b6 :: b7 :: b8 :: p)]) := by
  obtain ⟨b7, b8, hb, hl⟩ := lenFlagsBytes_spec o (lenFlagsOf st p.length)
  refine ⟨b7, b8, hl, ?_⟩
  simp only [wireFrame, frameBody, reservedBytes, hb, Config.sync0, Config.sync1]
  rfl

theorem wireFrame_length (o : LenOrder) (cmd : Byte) (rsv : Reserved) (st : BitVec 3) (p : List Byte) :
    (wireFrame o cmd rsv st p).length = 10 + p.length := by
  obtain ⟨b7, b8, -, h⟩ := wireFrame_shape o cmd rsv st p
  rw [h]
  simp only [List.length_append, List.length_cons, List.length_nil]
  omega

end Sys2Proof.Machine
end

