-- ==== Sys2Proof/Laws/Decoder.lean ====
section
/-! SUPPORT. The decode pass (spec/41_decoder.md): what FindSync answers, and the four ways a turn of the pass goes
(`decodeFrames_none`, `decodeFrames_drop`, `decodeFrames_wait`, `decodeFrames_frame`), which later proofs cite instead of
unfolding the loop. -/

namespace Sys2Proof.Machine

/-! ### FindSync (R102) -/

theorem findSync_cons_cons (a b : Byte) (t : List Byte) :
    findSync (a :: b :: t) =
      if a = 0x55#8 ∧ b = 0xAA#8 then some 0 else (findSync (b :: t)).map (· + 1) := rfl

theorem findSync_sync (t : List Byte) : findSync (0x55#8 :: 0xAA#8 :: t) = some 0 := by
  simp [findSync_cons_cons]

/-- Where FindSync answers, the pattern stands there and the suffix from there is sync-headed. -/
theorem findSync_some {s : List Byte} {i : Nat} (h : findSync s = some i) :
    ∃ t, s.drop i = 0x55#8 :: 0xAA#8 :: t := by
  induction s generalizing i with
  | nil => simp [findSync] at h
  | cons a s ih =>
    cases s with
    | nil => simp [findSync] at h
    | cons b t =>
      rw [findSync_cons_cons] at h
      split at h
      · rename_i hab
        obtain rfl : 0 = i := by simpa using h
        exact ⟨t, by simp [hab.1, hab.2]⟩
      · obtain ⟨j, hj, rfl⟩ := Option.map_eq_some_iff.mp h
        simpa using ih hj

theorem findSync_bound {s : List Byte} {i : Nat} (h : findSync s = some i) : i + 2 ≤ s.length := by
  obtain ⟨t, ht⟩ := findSync_some h
  have := congrArg List.length ht
  simp only [List.length_drop, List.length_cons] at this
  omega

theorem findSync_drop {s : List Byte} {i : Nat} (h : findSync s = some i) : findSync (s.drop i) = some 0 := by
  obtain ⟨t, ht⟩ := findSync_some h
  rw [ht, findSync_sync]

/-- A sync that is there already is found first whatever follows (the reason of R111). -/
theorem findSync_append {s : List Byte} {i : Nat} (h : findSync s = some i) (t : List Byte) :
    findSync (s ++ t) = some i := by
  induction s generalizing i with
  | nil => simp [findSync] at h
  | cons a s ih =>
    cases s with
    | nil => simp [findSync] at h
    | cons b u =>
      rw [findSync_cons_cons] at h
      simp only [List.cons_append] at ih ⊢
      rw [findSync_cons_cons]
      split at h
      · rw [if_pos ‹_›, ← h]
      · obtain ⟨j, hj, rfl⟩ := Option.map_eq_some_iff.mp h
        rw [if_neg ‹_›, ih hj]
        rfl

/-- No sync starts inside bytes that hold none, except at their last byte. -/
theorem findSync_noise {s : List Byte} (h : findSync s = none) (b : Byte) (t : List Byte)
    (hb : s.getLast? ≠ some 0x55#8 ∨ b ≠ 0xAA#8) :
    findSync (s ++ b :: t) = (findSync (b :: t)).map (· + s.length) := by
  induction s with
  | nil => simp
  | cons a s ih =>
    cases s with
    | nil =>
      simp only [List.cons_append, List.nil_append, findSync_cons_cons, List.length_cons, List.length_nil]
      rw [if_neg (by rintro ⟨rfl, rfl⟩; simp at hb)]
    | cons c u =>
      rw [findSync_cons_cons] at h
      split at h
      · simp at h
      · simp only [Option.map_eq_none_iff] at h
        have hb' : (c :: u).getLast? ≠ some 0x55#8 ∨ b ≠ 0xAA#8 := by simpa [List.getLast?_cons_cons] using hb
        have := ih h hb'
        simp only [List.cons_append] at this ⊢
        rw [findSync_cons_cons, if_neg ‹_›, this, Option.map_map]
        congr 1

/-! ### FrameLen of bytes that are there does not change when more arrive -/

theorem frameLenAt_append (o : LenOrder) {b : List Byte} (h : 9 ≤ b.length) (t : List Byte) :
    frameLenAt o (b ++ t) = frameLenAt o b := by
  simp only [frameLenAt, payloadLenAt, byteAt, List.getD_eq_getElem?_getD]
  rw [List.getElem?_append_left (by omega), List.getElem?_append_left (by omega)]

theorem frameLenAt_ge (o : LenOrder) (b : List Byte) : 10 ≤ frameLenAt o b := by
  simp only [frameLenAt, Config.minFrame]
  omega

theorem frameLenAt_le (o : LenOrder) (b : List Byte) : frameLenAt o b ≤ 8201 := by
  have := payloadLen_le (lenFlags o (byteAt b 7) (byteAt b 8))
  simp only [frameLenAt, payloadLenAt, Config.minFrame]
  omega

/-! ### The loop and its bound on turns -/

theorem decodeLoop_turn (o : LenOrder) (n : Nat) (buf : List Byte) :
    decodeLoop o (n + 1) buf =
      match findSync buf with
      | none => ⟨[], 0, buf⟩
      | some i =>
        if (buf.drop i).length < 10 then ⟨[], 0, buf.drop i⟩
        else if (buf.drop i).length < frameLenAt o (buf.drop i) then ⟨[], 0, buf.drop i⟩
        else
          (decodeLoop o n ((buf.drop i).drop (frameLenAt o (buf.drop i)))).after
            (frameValid (buf.drop i) (frameLenAt o (buf.drop i))) (commandAt o (buf.drop i)) := rfl

/-- More turns than bytes change nothing: each turn that goes on removes at least 10 bytes (R107). -/
theorem decodeLoop_enough (o : LenOrder) (n : Nat) (buf : List Byte) (h : buf.length < n) :
    decodeLoop o n buf = decodeFrames o buf := by
  suffices ∀ k n m (buf : List Byte), buf.length ≤ k → buf.length < n → buf.length < m →
      decodeLoop o n buf = decodeLoop o m buf from this _ _ _ _ le_rfl h (Nat.lt_succ_self _)
  intro k
  induction k with
  | zero =>
    intro n m buf hk hn hm
    obtain rfl := List.eq_nil_of_length_eq_zero (Nat.le_zero.mp hk)
    obtain ⟨n, rfl⟩ := Nat.exists_eq_succ_of_ne_zero (by omega : n ≠ 0)
    obtain ⟨m, rfl⟩ := Nat.exists_eq_succ_of_ne_zero (by omega : m ≠ 0)
    rfl
  | succ k ih =>
    intro n m buf hk hn hm
    obtain ⟨n, rfl⟩ := Nat.exists_eq_succ_of_ne_zero (by omega : n ≠ 0)
    obtain ⟨m, rfl⟩ := Nat.exists_eq_succ_of_ne_zero (by omega : m ≠ 0)
    rw [decodeLoop_turn, decodeLoop_turn]
    cases findSync buf with
    | none => rfl
    | some i =>
      have hge := frameLenAt_ge o (buf.drop i)
      have hl : ((buf.drop i).drop (frameLenAt o (buf.drop i))).length + 10 ≤ buf.length ∨
          (buf.drop i).length < 10 ∨ (buf.drop i).length < frameLenAt o (buf.drop i) := by
        simp only [List.length_drop]
        omega
      dsimp only
      split
      · rfl
      · split
        · rfl
        · rw [ih n m _ (by omega) (by omega) (by omega)]

/-- R110: no sync, nothing happens. -/
theorem decodeFrames_none (o : LenOrder) {buf : List Byte} (h : findSync buf = none) :
    decodeFrames o buf = ⟨[], 0, buf⟩ := by
  rw [decodeFrames, decodeLoop_turn, h]

/-- R103: the bytes before the sync are dropped. -/
theorem decodeFrames_drop (o : LenOrder) {buf : List Byte} {i : Nat} (h : findSync buf = some i) :
    decodeFrames o buf = decodeFrames o (buf.drop i) := by
  have hd := findSync_drop h
  have hl : (buf.drop i).length ≤ buf.length := by simp
  rw [← decodeLoop_enough o (buf.length + 1) (buf.drop i) (by omega), decodeFrames, decodeLoop_turn, decodeLoop_turn, h, hd]
  simp only [List.drop_zero]

/-- R104: an incomplete frame waits. -/
theorem decodeFrames_wait (o : LenOrder) {buf : List Byte} (h : findSync buf = some 0)
    (hw : buf.length < 10 ∨ buf.length < frameLenAt o buf) : decodeFrames o buf = ⟨[], 0, buf⟩ := by
  rw [decodeFrames, decodeLoop_turn, h]
  simp only [List.drop_zero]
  split
  · rfl
  · rw [if_pos (by omega)]

/-- R105 and R106: a complete frame at the head leaves the buffer whole, as a Command or as a corrupt frame. -/
theorem decodeFrames_frame (o : LenOrder) {buf : List Byte} (h : findSync buf = some 0)
    (hl : frameLenAt o buf ≤ buf.length) :
    decodeFrames o buf =
      (decodeFrames o (buf.drop (frameLenAt o buf))).after (frameValid buf (frameLenAt o buf)) (commandAt o buf) := by
  have hge := frameLenAt_ge o buf
  have hlen : (buf.drop (frameLenAt o buf)).length < buf.length := by
    simp only [List.length_drop]
    omega
  rw [decodeFrames, decodeLoop_turn, h]
  simp only [List.drop_zero]
  rw [if_neg (by omega), if_neg (by omega), decodeLoop_enough o _ _ hlen]

/-- Induction along a pass: no sync, bytes to drop, a wait, or a frame and then the rest. -/
theorem pass_induction (o : LenOrder) {P : List Byte → Prop}
    (hnone : ∀ b, findSync b = none → P b)
    (hdrop : ∀ b i, findSync b = some i → i ≠ 0 → P (b.drop i) → P b)
    (hwait : ∀ b, findSync b = some 0 → (b.length < 10 ∨ b.length < frameLenAt o b) → P b)
    (hframe : ∀ b, findSync b = some 0 → frameLenAt o b ≤ b.length → P (b.drop (frameLenAt o b)) → P b)
    (b : List Byte) : P b := by
  suffices ∀ n (b : List Byte), b.length ≤ n → P b from this _ b le_rfl
  intro n
  induction n with
  | zero =>
    intro b hb
    obtain rfl := List.eq_nil_of_length_eq_zero (Nat.le_zero.mp hb)
    exact hnone _ rfl
  | succ n ih =>
    have zero : ∀ b : List Byte, b.length ≤ n + 1 → findSync b = some 0 → P b := by
      intro b hb h
      have hge := frameLenAt_ge o b
      by_cases hw : b.length < 10 ∨ b.length < frameLenAt o b
      · exact hwait b h hw
      · refine hframe b h (by omega) (ih _ ?_)
        simp only [List.length_drop]
        omega
    intro b hb
    cases h : findSync b with
    | none => exact hnone b h
    | some i =>
      rcases Nat.eq_zero_or_pos i with rfl | hi
      · exact zero b hb h
      · refine hdrop b i h (by omega) (zero _ ?_ (findSync_drop h))
        simp only [List.length_drop]
        omega

/-! ### PassResult.after -/

theorem PassResult.after_true (r : PassResult) (c : Command) :
    r.after true c = ⟨c :: r.commands, r.bad, r.rest⟩ := rfl

theorem PassResult.after_false (r : PassResult) (c : Command) :
    r.after false c = ⟨r.commands, r.bad + 1, r.rest⟩ := rfl

@[simp] theorem PassResult.after_rest (r : PassResult) (v : Bool) (c : Command) : (r.after v c).rest = r.rest := by
  cases v <;> rfl

/-- A pass never makes the buffer longer. -/
theorem decodeFrames_rest_length (o : LenOrder) (buf : List Byte) :
    (decodeFrames o buf).rest.length ≤ buf.length := by
  induction buf using pass_induction o with
  | hnone b h => simp [decodeFrames_none o h]
  | hdrop b i h _ ih =>
    rw [decodeFrames_drop o h]
    simp only [List.length_drop] at ih
    omega
  | hwait b h hw => simp [decodeFrames_wait o h hw]
  | hframe b h hl ih =>
    rw [decodeFrames_frame o h hl, PassResult.after_rest]
    simp only [List.length_drop] at ih
    omega

/-! ### A whole frame at the head -/

theorem wireFrame_facts (o : LenOrder) (cmd : Byte) (rsv : Reserved) (st : BitVec 3) (p t : List Byte)
    (hp : p.length ≤ 8191) :
    findSync (wireFrame o cmd rsv st p ++ t) = some 0 ∧
    frameLenAt o (wireFrame o cmd rsv st p ++ t) = 10 + p.length ∧
    frameValid (wireFrame o cmd rsv st p ++ t) (10 + p.length) = true ∧
    commandAt o (wireFrame o cmd rsv st p ++ t) = ⟨[cmd], some st, p⟩ := by
  obtain ⟨b7, b8, hl, h⟩ := wireFrame_shape o cmd rsv st p
  have hpl : payloadLen (lenFlags o b7 b8) = p.length := by rw [hl, payloadLen_lenFlagsOf _ _ hp]
  rw [h]
  refine ⟨findSync_sync _, ?_, ?_, ?_⟩
  · simp [frameLenAt, payloadLenAt, byteAt, hpl, Config.minFrame]
  · have e : 10 + p.length - 1 = p.length + 9 := by omega
    simp [frameValid, slice, byteAt, e]
  · have hs : statusBits (lenFlags o b7 b8) = st := by rw [hl, statusBits_lenFlagsOf]
    simp [commandAt, payloadLenAt, byteAt, hpl, hs, slice, Config.hdrLen, Nat.add_comm 9 p.length]

end Sys2Proof.Machine
end

