-- ==== Sys2Proof/Laws/State.lean ====
section
/-! SUPPORT. What each named update leaves in each field of the state and of the counters, one lemma each. -/

namespace Sys2Proof.Machine

variable (s : State) (c : Counters)

@[simp] theorem State.setRxbuf_rxbuf (v : List Byte) : (s.setRxbuf v).rxbuf = v := rfl
@[simp] theorem State.setRxbuf_outq (v : List Byte) : (s.setRxbuf v).outq = s.outq := rfl
@[simp] theorem State.setRxbuf_txq (v : List Byte) : (s.setRxbuf v).txq = s.txq := rfl
@[simp] theorem State.setRxbuf_txout (v : List Byte) : (s.setRxbuf v).txout = s.txout := rfl
@[simp] theorem State.setRxbuf_cnt (v : List Byte) : (s.setRxbuf v).cnt = s.cnt := rfl
@[simp] theorem State.setRxbuf_resp (v : List Byte) : (s.setRxbuf v).resp = s.resp := rfl
@[simp] theorem State.setRxbuf_held (v : List Byte) : (s.setRxbuf v).held = s.held := rfl
@[simp] theorem State.setRxbuf_schedule (v : List Byte) : (s.setRxbuf v).schedule = s.schedule := rfl

@[simp] theorem State.setOutq_rxbuf (v : List Event) : (s.setOutq v).rxbuf = s.rxbuf := rfl
@[simp] theorem State.setOutq_outq (v : List Event) : (s.setOutq v).outq = v := rfl
@[simp] theorem State.setOutq_txq (v : List Event) : (s.setOutq v).txq = s.txq := rfl
@[simp] theorem State.setOutq_txout (v : List Event) : (s.setOutq v).txout = s.txout := rfl
@[simp] theorem State.setOutq_cnt (v : List Event) : (s.setOutq v).cnt = s.cnt := rfl
@[simp] theorem State.setOutq_resp (v : List Event) : (s.setOutq v).resp = s.resp := rfl
@[simp] theorem State.setOutq_held (v : List Event) : (s.setOutq v).held = s.held := rfl
@[simp] theorem State.setOutq_schedule (v : List Event) : (s.setOutq v).schedule = s.schedule := rfl

@[simp] theorem State.setTxq_rxbuf (v : List Command) : (s.setTxq v).rxbuf = s.rxbuf := rfl
@[simp] theorem State.setTxq_outq (v : List Command) : (s.setTxq v).outq = s.outq := rfl
@[simp] theorem State.setTxq_txq (v : List Command) : (s.setTxq v).txq = v := rfl
@[simp] theorem State.setTxq_txout (v : List Command) : (s.setTxq v).txout = s.txout := rfl
@[simp] theorem State.setTxq_cnt (v : List Command) : (s.setTxq v).cnt = s.cnt := rfl
@[simp] theorem State.setTxq_resp (v : List Command) : (s.setTxq v).resp = s.resp := rfl
@[simp] theorem State.setTxq_held (v : List Command) : (s.setTxq v).held = s.held := rfl
@[simp] theorem State.setTxq_schedule (v : List Command) : (s.setTxq v).schedule = s.schedule := rfl

@[simp] theorem State.setTxout_rxbuf (v : List Byte) : (s.setTxout v).rxbuf = s.rxbuf := rfl
@[simp] theorem State.setTxout_outq (v : List Byte) : (s.setTxout v).outq = s.outq := rfl
@[simp] theorem State.setTxout_txq (v : List Byte) : (s.setTxout v).txq = s.txq := rfl
@[simp] theorem State.setTxout_txout (v : List Byte) : (s.setTxout v).txout = v := rfl
@[simp] theorem State.setTxout_cnt (v : List Byte) : (s.setTxout v).cnt = s.cnt := rfl
@[simp] theorem State.setTxout_resp (v : List Byte) : (s.setTxout v).resp = s.resp := rfl
@[simp] theorem State.setTxout_held (v : List Byte) : (s.setTxout v).held = s.held := rfl
@[simp] theorem State.setTxout_schedule (v : List Byte) : (s.setTxout v).schedule = s.schedule := rfl

@[simp] theorem State.setCnt_rxbuf (v : Counters) : (s.setCnt v).rxbuf = s.rxbuf := rfl
@[simp] theorem State.setCnt_outq (v : Counters) : (s.setCnt v).outq = s.outq := rfl
@[simp] theorem State.setCnt_txq (v : Counters) : (s.setCnt v).txq = s.txq := rfl
@[simp] theorem State.setCnt_txout (v : Counters) : (s.setCnt v).txout = s.txout := rfl
@[simp] theorem State.setCnt_cnt (v : Counters) : (s.setCnt v).cnt = v := rfl
@[simp] theorem State.setCnt_resp (v : Counters) : (s.setCnt v).resp = s.resp := rfl
@[simp] theorem State.setCnt_held (v : Counters) : (s.setCnt v).held = s.held := rfl
@[simp] theorem State.setCnt_schedule (v : Counters) : (s.setCnt v).schedule = s.schedule := rfl

@[simp] theorem State.setResp_rxbuf (v : Response) : (s.setResp v).rxbuf = s.rxbuf := rfl
@[simp] theorem State.setResp_outq (v : Response) : (s.setResp v).outq = s.outq := rfl
@[simp] theorem State.setResp_txq (v : Response) : (s.setResp v).txq = s.txq := rfl
@[simp] theorem State.setResp_txout (v : Response) : (s.setResp v).txout = s.txout := rfl
@[simp] theorem State.setResp_cnt (v : Response) : (s.setResp v).cnt = s.cnt := rfl
@[simp] theorem State.setResp_resp (v : Response) : (s.setResp v).resp = v := rfl
@[simp] theorem State.setResp_held (v : Response) : (s.setResp v).held = s.held := rfl
@[simp] theorem State.setResp_schedule (v : Response) : (s.setResp v).schedule = s.schedule := rfl

@[simp] theorem State.setHeld_rxbuf (v : Option Instr) : (s.setHeld v).rxbuf = s.rxbuf := rfl
@[simp] theorem State.setHeld_outq (v : Option Instr) : (s.setHeld v).outq = s.outq := rfl
@[simp] theorem State.setHeld_txq (v : Option Instr) : (s.setHeld v).txq = s.txq := rfl
@[simp] theorem State.setHeld_txout (v : Option Instr) : (s.setHeld v).txout = s.txout := rfl
@[simp] theorem State.setHeld_cnt (v : Option Instr) : (s.setHeld v).cnt = s.cnt := rfl
@[simp] theorem State.setHeld_resp (v : Option Instr) : (s.setHeld v).resp = s.resp := rfl
@[simp] theorem State.setHeld_held (v : Option Instr) : (s.setHeld v).held = v := rfl
@[simp] theorem State.setHeld_schedule (v : Option Instr) : (s.setHeld v).schedule = s.schedule := rfl

@[simp] theorem State.setSchedule_rxbuf (v : List Byte) : (s.setSchedule v).rxbuf = s.rxbuf := rfl
@[simp] theorem State.setSchedule_outq (v : List Byte) : (s.setSchedule v).outq = s.outq := rfl
@[simp] theorem State.setSchedule_txq (v : List Byte) : (s.setSchedule v).txq = s.txq := rfl
@[simp] theorem State.setSchedule_txout (v : List Byte) : (s.setSchedule v).txout = s.txout := rfl
@[simp] theorem State.setSchedule_cnt (v : List Byte) : (s.setSchedule v).cnt = s.cnt := rfl
@[simp] theorem State.setSchedule_resp (v : List Byte) : (s.setSchedule v).resp = s.resp := rfl
@[simp] theorem State.setSchedule_held (v : List Byte) : (s.setSchedule v).held = s.held := rfl
@[simp] theorem State.setSchedule_schedule (v : List Byte) : (s.setSchedule v).schedule = v := rfl

@[simp] theorem Block.alone_toBlock (b : Block) : b.alone.toBlock = b := rfl
@[simp] theorem Block.alone_resp (b : Block) : b.alone.resp = .nothing := rfl
@[simp] theorem Block.alone_held (b : Block) : b.alone.held = none := rfl
@[simp] theorem Block.alone_schedule (b : Block) : b.alone.schedule = [] := rfl

@[simp] theorem Counters.addFramesOk_framesOk (n : Nat) : (c.addFramesOk n).framesOk = c.framesOk + BitVec.ofNat 32 n := rfl
@[simp] theorem Counters.addFramesOk_framesBad (n : Nat) : (c.addFramesOk n).framesBad = c.framesBad := rfl
@[simp] theorem Counters.addFramesOk_mapErrCmdType (n : Nat) : (c.addFramesOk n).mapErrCmdType = c.mapErrCmdType := rfl
@[simp] theorem Counters.addFramesOk_mapErrPayload (n : Nat) : (c.addFramesOk n).mapErrPayload = c.mapErrPayload := rfl
@[simp] theorem Counters.addFramesOk_outDrops (n : Nat) : (c.addFramesOk n).outDrops = c.outDrops := rfl
@[simp] theorem Counters.addFramesOk_txFrames (n : Nat) : (c.addFramesOk n).txFrames = c.txFrames := rfl
@[simp] theorem Counters.addFramesOk_txEncErr (n : Nat) : (c.addFramesOk n).txEncErr = c.txEncErr := rfl
@[simp] theorem Counters.addFramesOk_reserved (n : Nat) : (c.addFramesOk n).reserved = c.reserved := rfl

@[simp] theorem Counters.addFramesBad_framesOk (n : Nat) : (c.addFramesBad n).framesOk = c.framesOk := rfl
@[simp] theorem Counters.addFramesBad_framesBad (n : Nat) : (c.addFramesBad n).framesBad = c.framesBad + BitVec.ofNat 32 n := rfl
@[simp] theorem Counters.addFramesBad_mapErrCmdType (n : Nat) : (c.addFramesBad n).mapErrCmdType = c.mapErrCmdType := rfl
@[simp] theorem Counters.addFramesBad_mapErrPayload (n : Nat) : (c.addFramesBad n).mapErrPayload = c.mapErrPayload := rfl
@[simp] theorem Counters.addFramesBad_outDrops (n : Nat) : (c.addFramesBad n).outDrops = c.outDrops := rfl
@[simp] theorem Counters.addFramesBad_txFrames (n : Nat) : (c.addFramesBad n).txFrames = c.txFrames := rfl
@[simp] theorem Counters.addFramesBad_txEncErr (n : Nat) : (c.addFramesBad n).txEncErr = c.txEncErr := rfl
@[simp] theorem Counters.addFramesBad_reserved (n : Nat) : (c.addFramesBad n).reserved = c.reserved := rfl

@[simp] theorem Counters.incMapErrCmdType_framesOk : c.incMapErrCmdType.framesOk = c.framesOk := rfl
@[simp] theorem Counters.incMapErrCmdType_framesBad : c.incMapErrCmdType.framesBad = c.framesBad := rfl
@[simp] theorem Counters.incMapErrCmdType_mapErrCmdType : c.incMapErrCmdType.mapErrCmdType = c.mapErrCmdType + 1#32 := rfl
@[simp] theorem Counters.incMapErrCmdType_mapErrPayload : c.incMapErrCmdType.mapErrPayload = c.mapErrPayload := rfl
@[simp] theorem Counters.incMapErrCmdType_outDrops : c.incMapErrCmdType.outDrops = c.outDrops := rfl
@[simp] theorem Counters.incMapErrCmdType_txFrames : c.incMapErrCmdType.txFrames = c.txFrames := rfl
@[simp] theorem Counters.incMapErrCmdType_txEncErr : c.incMapErrCmdType.txEncErr = c.txEncErr := rfl
@[simp] theorem Counters.incMapErrCmdType_reserved : c.incMapErrCmdType.reserved = c.reserved := rfl

@[simp] theorem Counters.incMapErrPayload_framesOk : c.incMapErrPayload.framesOk = c.framesOk := rfl
@[simp] theorem Counters.incMapErrPayload_framesBad : c.incMapErrPayload.framesBad = c.framesBad := rfl
@[simp] theorem Counters.incMapErrPayload_mapErrCmdType : c.incMapErrPayload.mapErrCmdType = c.mapErrCmdType := rfl
@[simp] theorem Counters.incMapErrPayload_mapErrPayload : c.incMapErrPayload.mapErrPayload = c.mapErrPayload + 1#32 := rfl
@[simp] theorem Counters.incMapErrPayload_outDrops : c.incMapErrPayload.outDrops = c.outDrops := rfl
@[simp] theorem Counters.incMapErrPayload_txFrames : c.incMapErrPayload.txFrames = c.txFrames := rfl
@[simp] theorem Counters.incMapErrPayload_txEncErr : c.incMapErrPayload.txEncErr = c.txEncErr := rfl
@[simp] theorem Counters.incMapErrPayload_reserved : c.incMapErrPayload.reserved = c.reserved := rfl

@[simp] theorem Counters.incOutDrops_framesOk : c.incOutDrops.framesOk = c.framesOk := rfl
@[simp] theorem Counters.incOutDrops_framesBad : c.incOutDrops.framesBad = c.framesBad := rfl
@[simp] theorem Counters.incOutDrops_mapErrCmdType : c.incOutDrops.mapErrCmdType = c.mapErrCmdType := rfl
@[simp] theorem Counters.incOutDrops_mapErrPayload : c.incOutDrops.mapErrPayload = c.mapErrPayload := rfl
@[simp] theorem Counters.incOutDrops_outDrops : c.incOutDrops.outDrops = c.outDrops + 1#32 := rfl
@[simp] theorem Counters.incOutDrops_txFrames : c.incOutDrops.txFrames = c.txFrames := rfl
@[simp] theorem Counters.incOutDrops_txEncErr : c.incOutDrops.txEncErr = c.txEncErr := rfl
@[simp] theorem Counters.incOutDrops_reserved : c.incOutDrops.reserved = c.reserved := rfl

@[simp] theorem Counters.incTxFrames_framesOk : c.incTxFrames.framesOk = c.framesOk := rfl
@[simp] theorem Counters.incTxFrames_framesBad : c.incTxFrames.framesBad = c.framesBad := rfl
@[simp] theorem Counters.incTxFrames_mapErrCmdType : c.incTxFrames.mapErrCmdType = c.mapErrCmdType := rfl
@[simp] theorem Counters.incTxFrames_mapErrPayload : c.incTxFrames.mapErrPayload = c.mapErrPayload := rfl
@[simp] theorem Counters.incTxFrames_outDrops : c.incTxFrames.outDrops = c.outDrops := rfl
@[simp] theorem Counters.incTxFrames_txFrames : c.incTxFrames.txFrames = c.txFrames + 1#32 := rfl
@[simp] theorem Counters.incTxFrames_txEncErr : c.incTxFrames.txEncErr = c.txEncErr := rfl
@[simp] theorem Counters.incTxFrames_reserved : c.incTxFrames.reserved = c.reserved := rfl

@[simp] theorem Counters.incTxEncErr_framesOk : c.incTxEncErr.framesOk = c.framesOk := rfl
@[simp] theorem Counters.incTxEncErr_framesBad : c.incTxEncErr.framesBad = c.framesBad := rfl
@[simp] theorem Counters.incTxEncErr_mapErrCmdType : c.incTxEncErr.mapErrCmdType = c.mapErrCmdType := rfl
@[simp] theorem Counters.incTxEncErr_mapErrPayload : c.incTxEncErr.mapErrPayload = c.mapErrPayload := rfl
@[simp] theorem Counters.incTxEncErr_outDrops : c.incTxEncErr.outDrops = c.outDrops := rfl
@[simp] theorem Counters.incTxEncErr_txFrames : c.incTxEncErr.txFrames = c.txFrames := rfl
@[simp] theorem Counters.incTxEncErr_txEncErr : c.incTxEncErr.txEncErr = c.txEncErr + 1#32 := rfl
@[simp] theorem Counters.incTxEncErr_reserved : c.incTxEncErr.reserved = c.reserved := rfl

@[simp] theorem Counters.zero_framesOk : Counters.zero.framesOk = 0#32 := rfl
@[simp] theorem Counters.zero_framesBad : Counters.zero.framesBad = 0#32 := rfl
@[simp] theorem Counters.zero_mapErrCmdType : Counters.zero.mapErrCmdType = 0#32 := rfl
@[simp] theorem Counters.zero_mapErrPayload : Counters.zero.mapErrPayload = 0#32 := rfl
@[simp] theorem Counters.zero_outDrops : Counters.zero.outDrops = 0#32 := rfl
@[simp] theorem Counters.zero_txFrames : Counters.zero.txFrames = 0#32 := rfl
@[simp] theorem Counters.zero_txEncErr : Counters.zero.txEncErr = 0#32 := rfl
@[simp] theorem Counters.zero_reserved : Counters.zero.reserved = 0#32 := rfl

@[simp] theorem Counters.addFramesOk_zero : c.addFramesOk 0 = c := by simp [Counters.addFramesOk]

@[simp] theorem Counters.addFramesBad_zero : c.addFramesBad 0 = c := by simp [Counters.addFramesBad]

theorem State.txqHasRoom_iff : s.txqHasRoom = true ↔ s.txq.length < 10 := decide_eq_true_iff

end Sys2Proof.Machine
end

