-- ==== Sys2Proof/Laws/Engine.lean ====
section
/-! SUPPORT. What each shared operation over the state can do, said once: delivery and the receive pass, submission,
the TX engine, RESET. -/

namespace Sys2Proof.Machine

/-! ### Delivery (R108) -/

/-- Everything delivery can do. -/
theorem deliver_cases (s : State) (c : Command) :
    (∃ e, toEvent c = .ok e ∧ s.outq.length < 10 ∧ deliver s c = { s with outq := s.outq ++ [e] }) ∨
    (∃ e, toEvent c = .ok e ∧ 10 ≤ s.outq.length ∧
      deliver s c = { s with cnt := { s.cnt with outDrops := s.cnt.outDrops + 1#32 } }) ∨
    (toEvent c = .error .invalidCommandType ∧
      deliver s c = { s with cnt := { s.cnt with mapErrCmdType := s.cnt.mapErrCmdType + 1#32 } }) ∨
    (toEvent c = .error .invalidPayload ∧
      deliver s c = { s with cnt := { s.cnt with mapErrPayload := s.cnt.mapErrPayload + 1#32 } }) := by
  cases h : toEvent c with
  | ok e =>
    rcases Nat.lt_or_ge s.outq.length 10 with hl | hl
    · refine .inl ⟨e, rfl, hl, ?_⟩
      simp only [deliver, h, deliverEvent, Config.outqDepth]
      rw [if_pos hl]
      rfl
    · refine .inr (.inl ⟨e, rfl, hl, ?_⟩)
      simp only [deliver, h, deliverEvent, Config.outqDepth]
      rw [if_neg (Nat.not_lt.mpr hl)]
      rfl
  | error e =>
    cases e
    · refine .inr (.inr (.inl ⟨rfl, ?_⟩))
      simp only [deliver, h, countMapError]
      rfl
    · refine .inr (.inr (.inr ⟨rfl, ?_⟩))
      simp only [deliver, h, countMapError]
      rfl

/-- What delivery leaves alone. -/
structure DeliverFrame (s t : State) : Prop where
  rxbuf : t.rxbuf = s.rxbuf
  txq : t.txq = s.txq
  txout : t.txout = s.txout
  framesOk : t.cnt.framesOk = s.cnt.framesOk
  framesBad : t.cnt.framesBad = s.cnt.framesBad
  txFrames : t.cnt.txFrames = s.cnt.txFrames
  txEncErr : t.cnt.txEncErr = s.cnt.txEncErr
  counterSeven : t.cnt.reserved = s.cnt.reserved
  resp : t.resp = s.resp
  held : t.held = s.held
  schedule : t.schedule = s.schedule

theorem DeliverFrame.refl (s : State) : DeliverFrame s s := by constructor <;> rfl

theorem DeliverFrame.trans {s t u : State} (a : DeliverFrame s t) (b : DeliverFrame t u) : DeliverFrame s u :=
  ⟨b.rxbuf.trans a.rxbuf, b.txq.trans a.txq, b.txout.trans a.txout, b.framesOk.trans a.framesOk,
    b.framesBad.trans a.framesBad, b.txFrames.trans a.txFrames, b.txEncErr.trans a.txEncErr,
    b.counterSeven.trans a.counterSeven, b.resp.trans a.resp, b.held.trans a.held, b.schedule.trans a.schedule⟩

theorem deliver_frame (s : State) (c : Command) : DeliverFrame s (deliver s c) := by
  rcases deliver_cases s c with ⟨e, -, -, h⟩ | ⟨e, -, -, h⟩ | ⟨-, h⟩ | ⟨-, h⟩ <;> rw [h] <;> constructor <;> rfl

theorem deliverAll_frame (cs : List Command) (s : State) : DeliverFrame s (cs.foldl deliver s) := by
  induction cs generalizing s with
  | nil => exact DeliverFrame.refl s
  | cons c cs ih => exact (deliver_frame s c).trans (ih _)

/-! ### The receive pass -/

/-- The state a pass delivers its Commands into. -/
theorem receivePass_eq (s : State) :
    receivePass s =
      (decodeFrames .le s.rxbuf).commands.foldl deliver
        { s with
          rxbuf := (decodeFrames .le s.rxbuf).rest,
          cnt := { s.cnt with
            framesOk := s.cnt.framesOk + BitVec.ofNat 32 (decodeFrames .le s.rxbuf).commands.length,
            framesBad := s.cnt.framesBad + BitVec.ofNat 32 (decodeFrames .le s.rxbuf).bad } } := rfl

theorem receivePass_rxbuf (s : State) : (receivePass s).rxbuf = (decodeFrames .le s.rxbuf).rest := by
  rw [receivePass_eq, (deliverAll_frame _ _).rxbuf]

/-- What the receive engine leaves alone. -/
structure ReceiveFrame (s t : State) : Prop where
  txSide : SameTxSide s t
  rest : SameRest s t
  resp : t.resp = s.resp
  held : t.held = s.held

theorem ReceiveFrame.refl (s : State) : ReceiveFrame s s :=
  ⟨⟨rfl, rfl, rfl, rfl⟩, ⟨rfl, rfl⟩, rfl, rfl⟩

theorem ReceiveFrame.trans {s t u : State} (a : ReceiveFrame s t) (b : ReceiveFrame t u) : ReceiveFrame s u :=
  ⟨⟨b.txSide.txq.trans a.txSide.txq, b.txSide.txout.trans a.txSide.txout, b.txSide.txFrames.trans a.txSide.txFrames,
      b.txSide.txEncErr.trans a.txSide.txEncErr⟩,
    ⟨b.rest.counterSeven.trans a.rest.counterSeven, b.rest.schedule.trans a.rest.schedule⟩,
    b.resp.trans a.resp, b.held.trans a.held⟩

theorem receivePass_frame (s : State) : ReceiveFrame s (receivePass s) := by
  have h := deliverAll_frame (decodeFrames .le s.rxbuf).commands
    { s with
      rxbuf := (decodeFrames .le s.rxbuf).rest,
      cnt := { s.cnt with
        framesOk := s.cnt.framesOk + BitVec.ofNat 32 (decodeFrames .le s.rxbuf).commands.length,
        framesBad := s.cnt.framesBad + BitVec.ofNat 32 (decodeFrames .le s.rxbuf).bad } }
  rw [receivePass_eq]
  exact ⟨⟨h.txq, h.txout, h.txFrames, h.txEncErr⟩, ⟨h.counterSeven, h.schedule⟩, h.resp, h.held⟩

theorem pushByte_eq (s : State) (b : Byte) :
    pushByte s b = receivePass { s with rxbuf := overflowTrim 8201 s.rxbuf ++ [b] } := rfl

theorem pushByte_frame (s : State) (b : Byte) : ReceiveFrame s (pushByte s b) := by
  have h := receivePass_frame { s with rxbuf := overflowTrim 8201 s.rxbuf ++ [b] }
  rw [pushByte_eq]
  exact ⟨⟨h.txSide.txq, h.txSide.txout, h.txSide.txFrames, h.txSide.txEncErr⟩,
    ⟨h.rest.counterSeven, h.rest.schedule⟩, h.resp, h.held⟩

@[simp] theorem pushBytes_nil (s : State) : pushBytes s [] = s := rfl

@[simp] theorem pushBytes_cons (s : State) (b : Byte) (bs : List Byte) :
    pushBytes s (b :: bs) = pushBytes (pushByte s b) bs := rfl

theorem pushBytes_append (s : State) (a b : List Byte) : pushBytes s (a ++ b) = pushBytes (pushBytes s a) b := by
  simp [pushBytes]

theorem pushBytes_frame (bs : List Byte) (s : State) : ReceiveFrame s (pushBytes s bs) := by
  induction bs generalizing s with
  | nil => exact ReceiveFrame.refl s
  | cons b bs ih => exact (pushByte_frame s b).trans (ih _)

/-! ### The transmit side -/

/-- Everything a submission can do (R172, R173). -/
theorem submit_cases (s : State) (i : Instr) (r : Except MapError Command) :
    (10 ≤ s.txq.length ∧ submit s i r = { s with held := some i, resp := .held }) ∨
    (∃ c, s.txq.length < 10 ∧ r = .ok c ∧ submit s i r = { s with txq := s.txq ++ [c], resp := .accepted }) ∨
    (∃ e, s.txq.length < 10 ∧ r = .error e ∧ submit s i r = { s with resp := .error e }) := by
  rcases Nat.lt_or_ge s.txq.length 10 with hl | hl
  · have hr := (State.txqHasRoom_iff s).mpr hl
    cases r with
    | ok c => exact .inr (.inl ⟨c, hl, rfl, by simp only [submit, hr, if_true]; rfl⟩)
    | error e => exact .inr (.inr ⟨e, hl, rfl, by simp only [submit, hr, if_true]; rfl⟩)
  · have hr : ¬ s.txqHasRoom = true := fun h => by
      have := (State.txqHasRoom_iff s).mp h
      omega
    exact .inl ⟨hl, by simp only [submit, if_neg hr]; rfl⟩

/-- What the encoder answers (R130, R131). -/
theorem encodeFrame_cases (o : LenOrder) (c : Command) :
    (∃ b, c.cmdType = [b] ∧ encodeFrame o c = .ok (wireFrame o b Reserved.zero 0#3 c.payload)) ∨
    (c.cmdType.length ≠ 1 ∧ encodeFrame o c = .error .invalidCommandType) := by
  obtain ⟨cmd, st, p⟩ := c
  match cmd with
  | [] => exact .inr ⟨by simp, rfl⟩
  | [b] => exact .inl ⟨b, rfl, rfl⟩
  | _ :: _ :: _ => exact .inr ⟨by simp, rfl⟩

/-- Everything TX_STEP can do (R174). -/
theorem txEngine_cases (s : State) :
    (s.txq = [] ∧ txEngine s = s) ∨
    (∃ c rest b, s.txq = c :: rest ∧ c.cmdType = [b] ∧
      txEngine s = { s with
        txq := rest, txout := s.txout ++ wireFrame .le b Reserved.zero 0#3 c.payload,
        cnt := { s.cnt with txFrames := s.cnt.txFrames + 1#32 } }) ∨
    (∃ c rest, s.txq = c :: rest ∧ c.cmdType.length ≠ 1 ∧
      txEngine s = { s with txq := rest, cnt := { s.cnt with txEncErr := s.cnt.txEncErr + 1#32 } }) := by
  cases h : s.txq with
  | nil => exact .inl ⟨rfl, by simp [txEngine, h]⟩
  | cons c rest =>
    rcases encodeFrame_cases .le c with ⟨b, hb, he⟩ | ⟨hb, he⟩
    · refine .inr (.inl ⟨c, rest, b, rfl, hb, ?_⟩)
      simp only [txEngine, h, transmit, Config.lenOrder, he]
      rfl
    · refine .inr (.inr ⟨c, rest, rfl, hb, ?_⟩)
      simp only [txEngine, h, transmit, Config.lenOrder, he]
      rfl

/-- RESET (R220). -/
theorem clear_eq (s : State) : clear s = { s with rxbuf := [], outq := [], txq := [], cnt := Counters.zero } := rfl

/-! ### The mapper -/

/-- The validator answers device-originated Events only. -/
theorem toEvent_device {c : Command} {e : Event} (h : toEvent c = .ok e) : deviceOriginated e = true := by
  unfold toEvent at h
  split at h
  · simp at h
  · unfold validate at h
    split_ifs at h <;> (obtain rfl := Except.ok.inj h; rfl)

/-- The Commands a request mapper makes can be presented. -/
theorem recordCommand_presentable {r : PortRecord} {c : Command} (h : recordCommand r = .ok c) :
    c.payloadFits = true ∧ c.cmdFits = true := by
  have key : ∀ e : Event, toCommand e = .ok c → c.payloadFits = true ∧ c.cmdFits = true := by
    intro e he
    cases e <;> simp only [toCommand, reduceCtorEq, Except.ok.injEq] at he <;> subst he <;>
      simp [Command.payloadFits, Command.cmdFits, Config.maxPayload, Config.cmdLenMax]
  unfold recordCommand at h
  split at h
  · exact key _ h
  · simp at h

end Sys2Proof.Machine
end

