-- ==== Sys2Proof/Laws/Parse.lean ====
section
/-! SUPPORT. Each part of an offered item is read back from the bytes written for it, and what is read is what was
written: one lemma each way for each part. -/

namespace Sys2Proof

open Sys2Proof.Machine

/-! ### Byte runs and byte lists -/

theorem takeBytes_append (p rest : List Byte) : takeBytes p.length (p ++ rest) = .got p rest := by
  induction p with
  | nil => rfl
  | cons b p ih => simp [takeBytes, ih]

theorem takeBytes_got {n : Nat} {bs p rest : List Byte} (h : takeBytes n bs = .got p rest) :
    bs = p ++ rest ∧ p.length = n := by
  induction n generalizing bs p with
  | zero =>
    simp only [takeBytes, Parsed.got.injEq] at h
    obtain ⟨rfl, rfl⟩ := h
    exact ⟨rfl, rfl⟩
  | succ n ih =>
    cases bs with
    | nil => simp [takeBytes] at h
    | cons b bs =>
      simp only [takeBytes] at h
      split at h
      · rename_i q r hq
        obtain ⟨rfl, rfl⟩ := Parsed.got.inj h
        obtain ⟨rfl, rfl⟩ := ih hq
        exact ⟨rfl, rfl⟩
      · simp at h

theorem parseMarked_zero (t : List Byte) : parseMarked (0#8 :: t) = .got [] t := by
  cases t <;> rfl

theorem parseMarked_one (b : Byte) (t : List Byte) :
    parseMarked (1#8 :: b :: t) =
      match parseMarked t with
      | .got bs rest => .got (b :: bs) rest
      | .err e => .err e := by
  conv => lhs; unfold parseMarked
  rw [if_neg (by decide), if_pos rfl]
  all_goals rfl

theorem parseMarked_markedBytes (l rest : List Byte) : parseMarked (markedBytes l ++ rest) = .got l rest := by
  induction l with
  | nil => exact parseMarked_zero rest
  | cons b l ih =>
    show parseMarked (1#8 :: b :: (markedBytes l ++ rest)) = _
    rw [parseMarked_one, ih]

theorem parseMarked_got {bs l rest : List Byte} (h : parseMarked bs = .got l rest) : bs = markedBytes l ++ rest := by
  suffices ∀ n (bs l : List Byte), bs.length ≤ n → parseMarked bs = .got l rest → bs = markedBytes l ++ rest from
    this _ _ _ le_rfl h
  intro n
  induction n with
  | zero =>
    intro bs l hn h
    obtain rfl := List.eq_nil_of_length_eq_zero (Nat.le_zero.mp hn)
    simp [parseMarked] at h
  | succ n ih =>
    intro bs l hn h
    match bs with
    | [] => simp [parseMarked] at h
    | [m] =>
      simp only [parseMarked] at h
      split_ifs at h with h0
      · obtain ⟨rfl, rfl⟩ := Parsed.got.inj h
        subst h0
        rfl
    | m :: b :: t =>
      unfold parseMarked at h
      split_ifs at h with h0 h1
      · obtain ⟨rfl, rfl⟩ := Parsed.got.inj h
        subst h0
        rfl
      · subst h1
        split at h
        · rename_i q r hq
          obtain ⟨rfl, rfl⟩ := Parsed.got.inj h
          have := ih t q (by simp only [List.length_cons] at hn; omega) hq
          rw [this]
          rfl
        · simp at h

/-! ### Status byte, payload, Command, port record -/

theorem parseStatusByte_statusByte (st : Option (BitVec 3)) : parseStatusByte (statusByte st) = some st := by
  cases st with
  | none => rfl
  | some st =>
    revert st
    decide

theorem low_three (k : BitVec 3) : ((0#5 ++ k : BitVec 8)).extractLsb' 3 5 = 0#5 ∧
    ((0#5 ++ k : BitVec 8)).extractLsb' 0 3 = k := by
  revert k
  decide

theorem low_three_back {b : Byte} (h : b.extractLsb' 3 5 = 0#5) : (0#5 ++ b.extractLsb' 0 3 : BitVec 8) = b := by
  rw [← h]
  apply BitVec.eq_of_getLsbD_eq
  intro i hi
  simp only [BitVec.getLsbD_append, BitVec.getLsbD_extractLsb']
  interval_cases i <;> simp

theorem parseStatusByte_some {b : Byte} {st : Option (BitVec 3)} (h : parseStatusByte b = some st) :
    statusByte st = b := by
  unfold parseStatusByte at h
  split_ifs at h with h0 h1
  · obtain rfl := Option.some.inj h
    exact h0.symm
  · obtain rfl := Option.some.inj h
    exact low_three_back h1

theorem parsePresentByte_presentByte (present : Bool) (st : BitVec 3) :
    parsePresentByte (presentByte present st) = some (present, st) := by
  revert present st
  decide

theorem parsePresentByte_some {b : Byte} {present : Bool} {st : BitVec 3}
    (h : parsePresentByte b = some (present, st)) : presentByte present st = b := by
  unfold parsePresentByte at h
  split_ifs at h with h0
  obtain ⟨rfl, rfl⟩ := Prod.mk.inj (Option.some.inj h)
  rw [presentByte, ← h0]
  apply BitVec.eq_of_getLsbD_eq
  intro i hi
  simp only [BitVec.getLsbD_append, BitVec.getLsbD_extractLsb']
  interval_cases i <;> simp

theorem byte_pair (v : BitVec 16) : v.extractLsb' 8 8 ++ v.extractLsb' 0 8 = v := by
  apply BitVec.eq_of_getLsbD_eq
  intro i hi
  simp only [BitVec.getLsbD_append, BitVec.getLsbD_extractLsb']
  interval_cases i <;> simp

theorem byte_pair_low (lo hi : Byte) : (hi ++ lo : BitVec 16).extractLsb' 0 8 = lo := by
  apply BitVec.eq_of_getLsbD_eq
  intro i h
  simp only [BitVec.getLsbD_append, BitVec.getLsbD_extractLsb']
  interval_cases i <;> simp

theorem byte_pair_high (lo hi : Byte) : (hi ++ lo : BitVec 16).extractLsb' 8 8 = hi := by
  apply BitVec.eq_of_getLsbD_eq
  intro i h
  simp only [BitVec.getLsbD_append, BitVec.getLsbD_extractLsb']
  interval_cases i <;> simp

theorem parsePayload_append (p rest : List Byte) (hp : p.length ≤ 8191) :
    parsePayload ((BitVec.ofNat 16 p.length).extractLsb' 0 8) ((BitVec.ofNat 16 p.length).extractLsb' 8 8) (p ++ rest) =
      .got p rest := by
  have e : (BitVec.ofNat 16 p.length).toNat = p.length := by
    rw [BitVec.toNat_ofNat]
    omega
  rw [parsePayload, byte_pair, e, if_pos hp, takeBytes_append]

theorem parsePayload_got {lo hi : Byte} {bs p rest : List Byte} (h : parsePayload lo hi bs = .got p rest) :
    bs = p ++ rest ∧ p.length ≤ 8191 ∧ (BitVec.ofNat 16 p.length).extractLsb' 0 8 = lo ∧
      (BitVec.ofNat 16 p.length).extractLsb' 8 8 = hi := by
  unfold parsePayload at h
  split_ifs at h with hl
  obtain ⟨rfl, hn⟩ := takeBytes_got h
  rw [hn, BitVec.ofNat_toNat, BitVec.setWidth_eq]
  exact ⟨rfl, hl, byte_pair_low lo hi, byte_pair_high lo hi⟩

theorem parseFields_fieldBytes (cmd : List Byte) (sb : Byte) (p rest : List Byte) (hp : p.length ≤ 8191) :
    parseFields (fieldBytes cmd sb p ++ rest) = .got (cmd, sb, p) rest := by
  simp only [fieldBytes, parseFields, List.append_assoc, parseMarked_markedBytes, List.cons_append,
    parsePayload_append _ _ hp]

theorem parseFields_got {bs rest cmd p : List Byte} {sb : Byte} (h : parseFields bs = .got (cmd, sb, p) rest) :
    bs = fieldBytes cmd sb p ++ rest ∧ p.length ≤ 8191 := by
  unfold parseFields at h
  split at h
  · simp at h
  · rename_i cmd' sb' lo hi t hm
    split at h
    · rename_i p' r hpp
      simp only [Parsed.got.injEq, Prod.mk.injEq] at h
      obtain ⟨⟨rfl, rfl, rfl⟩, rfl⟩ := h
      obtain ⟨rfl, hp, hlo, hhi⟩ := parsePayload_got hpp
      refine ⟨?_, hp⟩
      rw [parseMarked_got hm]
      simp only [fieldBytes, hlo, hhi, List.append_assoc, List.cons_append]
    · simp at h
  · simp at h

theorem parseCommand_commandBytes (c : Command) (rest : List Byte) (hp : c.payloadFits = true) :
    parseCommand (commandBytes c ++ rest) = .got c rest := by
  have hp' : c.payload.length ≤ 8191 := of_decide_eq_true hp
  simp only [commandBytes, parseCommand, parseFields_fieldBytes _ _ _ _ hp', parseStatusByte_statusByte]

theorem parseCommand_got {bs rest : List Byte} {c : Command} (h : parseCommand bs = .got c rest) :
    bs = commandBytes c ++ rest ∧ c.payloadFits = true := by
  unfold parseCommand at h
  split at h
  · rename_i cmd sb p t hf
    split at h
    · rename_i st hst
      obtain ⟨rfl, rfl⟩ := Parsed.got.inj h
      obtain ⟨rfl, hp⟩ := parseFields_got hf
      exact ⟨by rw [commandBytes, parseStatusByte_some hst], decide_eq_true hp⟩
    · simp at h
  · simp at h

theorem parseCommandRecord_commandRecordBytes (r : CommandRecord) (rest : List Byte)
    (hp : r.command.payloadFits = true) : parseCommandRecord (commandRecordBytes r ++ rest) = .got r rest := by
  have hp' : r.payload.length ≤ 8191 := of_decide_eq_true hp
  simp only [commandRecordBytes, parseCommandRecord, parseFields_fieldBytes _ _ _ _ hp', parsePresentByte_presentByte]

theorem parseCommandRecord_got {bs rest : List Byte} {r : CommandRecord} (h : parseCommandRecord bs = .got r rest) :
    bs = commandRecordBytes r ++ rest ∧ r.command.payloadFits = true := by
  unfold parseCommandRecord at h
  split at h
  · rename_i cmd sb p t hf
    split at h
    · rename_i present st hst
      obtain ⟨rfl, rfl⟩ := Parsed.got.inj h
      obtain ⟨rfl, hp⟩ := parseFields_got hf
      exact ⟨by rw [commandRecordBytes, parsePresentByte_some hst], decide_eq_true hp⟩
    · simp at h
  · simp at h

theorem parseRecord_recordBytes (r : PortRecord) (rest : List Byte) :
    parseRecord (recordBytes r ++ rest) = .got r rest := by
  obtain ⟨k, x, y, f, c⟩ := r
  have hk := low_three k
  simp only [recordBytes, leBytes32, List.cons_append, List.nil_append, parseRecord]
  rw [if_pos hk.1, hk.2, leWord_leBytes, leWord_leBytes]

theorem parseRecord_got {bs rest : List Byte} {r : PortRecord} (h : parseRecord bs = .got r rest) :
    bs = recordBytes r ++ rest := by
  unfold parseRecord at h
  split at h
  · split_ifs at h with hk
    obtain ⟨rfl, rfl⟩ := Parsed.got.inj h
    simp only [recordBytes, leBytes_leWord, low_three_back hk, List.cons_append, List.nil_append]
  · simp at h

/-! ### A frame -/

theorem parseFrameTail_append (p : List Byte) (chk : Byte) (rest : List Byte) :
    parseFrameTail p.length (p ++ chk :: rest) = .got (p, chk) rest := by
  simp [parseFrameTail, takeBytes_append]

theorem parseFrameTail_got {n : Nat} {t rest : List Byte} {p : List Byte} {chk : Byte}
    (h : parseFrameTail n t = .got (p, chk) rest) : t = p ++ chk :: rest ∧ p.length = n := by
  unfold parseFrameTail at h
  split at h
  · rename_i q c r hq
    obtain ⟨hpc, rfl⟩ := Parsed.got.inj h
    obtain ⟨rfl, rfl⟩ := Prod.mk.inj hpc
    exact takeBytes_got hq
  · simp at h
  · simp at h

/-- A whole frame reads as its four parts, whatever kind it is. -/
theorem decode_wireFrame (cmd : Byte) (rsv : Reserved) (st : BitVec 3) (p rest : List Byte) (hp : p.length ≤ 8191) :
    decode (wireFrame .le cmd rsv st p ++ rest) = classifyFrame cmd rsv st p rest := by
  obtain ⟨b7, b8, hl, h⟩ := wireFrame_shape .le cmd rsv st p
  have hpl : payloadLen (lenFlags .le b7 b8) = p.length := by rw [hl, payloadLen_lenFlagsOf _ _ hp]
  have hst : statusBits (lenFlags .le b7 b8) = st := by rw [hl, statusBits_lenFlagsOf]
  rw [h]
  simp only [List.cons_append, List.nil_append, List.append_assoc, decode, if_true, decodeFrame]
  rw [hpl, hst, parseFrameTail_append]
  simp only [Parsed.andThen, if_true]

/-- Bytes that read as a frame's parts are that frame. -/
theorem decodeFrame_ok {bs rest : List Byte} {i : Instr} (h : decodeFrame bs = .ok i rest) :
    ∃ cmd rsv st p rest', p.length ≤ 8191 ∧ 0x55#8 :: bs = wireFrame .le cmd rsv st p ++ rest' ∧
      classifyFrame cmd rsv st p rest' = .ok i rest := by
  unfold decodeFrame at h
  split at h
  · rename_i s1 cmd r3 r4 r5 r6 b7 b8 t
    split_ifs at h with hs
    unfold Parsed.andThen at h
    split at h
    · rename_i pc rest' hpc
      obtain ⟨p, chk⟩ := pc
      obtain ⟨rfl, hlen⟩ := parseFrameTail_got hpc
      dsimp only at h
      split_ifs at h with hc
      refine ⟨cmd, ⟨r3, r4, r5, r6⟩, _, p, rest', hlen ▸ payloadLen_le _, ?_, h⟩
      have hb : lenFlagsBytes .le (lenFlagsOf (statusBits (lenFlags .le b7 b8)) p.length) = [b7, b8] := by
        rw [hlen, lenFlagsOf_parts, lenFlags_split]
      simp only [wireFrame, frameBody, reservedBytes, hb, hs, List.cons_append, List.nil_append, List.append_assoc]
      rw [hc]
    · simp at h
  · simp at h

end Sys2Proof
end

