-- ==== Sys2Proof/Laws/PerInstr.lean ====
section
/-! SUPPORT. Facts about every instruction as syntax, one lemma for each constructor: an item's first byte is its
opcode byte, SYNC0 for a message (spec/30_encoding.md R61). -/

namespace Sys2Proof.Laws.EncodeHead

/-- The first byte of an item is its opcode byte. -/
def Statement (i : Instr) : Prop := (encode i).head? = some (opcodeByte i)

theorem setPositionRequest (x y : Word32) : Statement (.setPositionRequest x y) := rfl
theorem getPositionRequest : Statement .getPositionRequest := rfl
theorem setPositionAck (rsv : Reserved) : Statement (.setPositionAck rsv) := rfl
theorem positionReached (rsv : Reserved) (x y : Word32) : Statement (.positionReached rsv x y) := rfl
theorem getPositionResponse (rsv : Reserved) (x y : Word32) (flag : Byte) :
    Statement (.getPositionResponse rsv x y flag) := rfl
theorem errorResponse (cmd : Byte) (rsv : Reserved) (cause : Byte) : Statement (.errorResponse cmd rsv cause) := rfl
theorem checksum (bs : List Byte) : Statement (.checksum bs) := rfl
theorem decodePass : Statement .decodePass := rfl
theorem encode (c : Command) : Statement (.encode c) := rfl
theorem toEvent (c : Command) : Statement (.toEvent c) := rfl
theorem toCommand (r : PortRecord) : Statement (.toCommand r) := rfl
theorem rxPush (b : Byte) : Statement (.rxPush b) := rfl
theorem outPop : Statement .outPop := rfl
theorem txSubmitCmd (r : CommandRecord) : Statement (.txSubmitCmd r) := rfl
theorem txSubmitReq (r : PortRecord) : Statement (.txSubmitReq r) := rfl
theorem txStep : Statement .txStep := rfl
theorem statRead (n : BitVec 3) : Statement (.statRead n) := rfl
theorem reset : Statement .reset := rfl
theorem rxPushSeq (bs : List Byte) : Statement (.rxPushSeq bs) := rfl

end Sys2Proof.Laws.EncodeHead
end

