-- ==== Sys2Proof/Laws/Settled.lean ====
section
/-! SUPPORT. Small facts that statements about passes and transactions meet again and again: what settled and HUNT mean
for FindSync (spec/10_state.md R24), that a settled buffer stays through a pass, that slices of bytes already there do not
change when more arrive, that an answer given back does not touch the receive side, and the two ways a submission goes. -/

namespace Sys2Proof.Machine

/-! ### Phases (R24) -/

theorem settled_iff (o : LenOrder) (buf : List Byte) :
    settled o buf ↔
      findSync buf = none ∨ (findSync buf = some 0 ∧ (buf.length < 10 ∨ buf.length < frameLenAt o buf)) := by
  unfold settled phase
  cases findSync buf with
  | none => simp
  | some i =>
    cases i with
    | zero =>
      dsimp only [Config.minFrame]
      split_ifs <;> simp <;> omega
    | succ i => simp

theorem hunt_iff (o : LenOrder) (buf : List Byte) : phase o buf = .hunt ↔ findSync buf = none := by
  unfold phase
  cases findSync buf with
  | none => simp
  | some i =>
    cases i with
    | zero =>
      dsimp only [Config.minFrame]
      split_ifs <;> simp
    | succ i => simp

theorem settled_of_hunt {o : LenOrder} {buf : List Byte} (h : findSync buf = none) : settled o buf :=
  (settled_iff o buf).mpr (.inl h)

/-- A pass on a settled buffer does nothing. -/
theorem settled_pass (o : LenOrder) {buf : List Byte} (h : settled o buf) : decodeFrames o buf = ⟨[], 0, buf⟩ := by
  rcases (settled_iff o buf).mp h with h | ⟨h, hw⟩
  · exact decodeFrames_none o h
  · exact decodeFrames_wait o h hw

theorem receivePass_settled (s : State) (h : settled .le s.rxbuf) : receivePass s = s := by
  rw [receivePass_eq, settled_pass _ h]
  simp

theorem trim_settled {o : LenOrder} {buf : List Byte} (cap : Nat) (h : settled o buf) :
    settled o (overflowTrim cap buf) := by
  unfold overflowTrim
  split_ifs
  · exact settled_of_hunt rfl
  · exact settled_of_hunt rfl
  · exact h

/-! ### Bytes that are there stay when more arrive -/

theorem slice_append (f t : List Byte) (i j : Nat) (h : j ≤ f.length) : slice (f ++ t) i j = slice f i j := by
  simp [slice, List.take_append_of_le_length h]

theorem byteAt_append (f t : List Byte) (i : Nat) (h : i < f.length) : byteAt (f ++ t) i = byteAt f i := by
  simp [byteAt, List.getElem?_append_left h]

/-! ### The answer given back is not part of the receive side -/

theorem deliver_setResp (s : State) (r : Response) (c : Command) :
    deliver (s.setResp r) c = (deliver s c).setResp r := by
  unfold deliver
  cases toEvent c with
  | ok e =>
    simp only [deliverEvent]
    by_cases h : s.outq.length < Config.outqDepth
    · rw [if_pos h, if_pos (by exact h)]
      rfl
    · rw [if_neg h, if_neg (by exact h)]
      rfl
  | error e => cases e <;> rfl

theorem deliverAll_setResp (cs : List Command) (s : State) (r : Response) :
    cs.foldl deliver (s.setResp r) = (cs.foldl deliver s).setResp r := by
  induction cs generalizing s with
  | nil => rfl
  | cons c cs ih => simp only [List.foldl_cons, deliver_setResp, ih]

theorem receivePass_setResp (s : State) (r : Response) : receivePass (s.setResp r) = (receivePass s).setResp r := by
  rw [receivePass_eq, receivePass_eq, ← deliverAll_setResp]
  rfl

theorem pushByte_setResp (s : State) (r : Response) (b : Byte) :
    pushByte (s.setResp r) b = (pushByte s b).setResp r := by
  rw [pushByte_eq, pushByte_eq, ← receivePass_setResp]
  rfl

theorem pushBytes_setResp (bs : List Byte) (s : State) (r : Response) :
    pushBytes (s.setResp r) bs = (pushBytes s bs).setResp r := by
  induction bs generalizing s with
  | nil => rfl
  | cons b bs ih => simp only [pushBytes_cons, pushByte_setResp, ih]

/-! ### Submissions (R172, R173) -/

theorem submit_ok {s : State} (h : s.txq.length < 10) (i : Instr) (c : Command) :
    submit s i (.ok c) = { s with txq := s.txq ++ [c], resp := .accepted } := by
  simp only [submit, (State.txqHasRoom_iff s).mpr h, if_true]
  rfl

theorem submit_error {s : State} (h : s.txq.length < 10) (i : Instr) (e : MapError) :
    submit s i (.error e) = { s with resp := .error e } := by
  simp only [submit, (State.txqHasRoom_iff s).mpr h, if_true]
  rfl

theorem submit_full {s : State} (h : 10 ≤ s.txq.length) (i : Instr) (r : Except MapError Command) :
    submit s i r = { s with held := some i, resp := .held } := by
  have hr : ¬ s.txqHasRoom = true := fun hh => by
    have := (State.txqHasRoom_iff s).mp hh
    omega
  simp only [submit, if_neg hr]
  rfl

/-- The request mapper on a record, by its kind (R75, R151). -/
theorem recordCommand_eq (r : PortRecord) :
    recordCommand r =
      if r.kind = 5#3 then .ok ⟨[0x31#8], none, leBytes32 r.x ++ leBytes32 r.y⟩
      else if r.kind = 6#3 then .ok ⟨[0x33#8], none, []⟩
      else .error .invalidCommandType := by
  obtain ⟨k, x, y, f, c⟩ := r
  have kinds : ∀ k : BitVec 3, k = 0 ∨ k = 1 ∨ k = 2 ∨ k = 3 ∨ k = 4 ∨ k = 5 ∨ k = 6 ∨ k = 7 := by decide
  rcases kinds k with rfl | rfl | rfl | rfl | rfl | rfl | rfl | rfl <;> rfl

/-! ### Steps -/

/-- What TO_EVENT gives back (R140). -/
theorem execToEvent_eq (c : Command) (s : State) :
    execToEvent c s = .next { s with resp := match toEvent c with | .ok e => .mapped e | .error e => .error e } := by
  simp only [execToEvent]
  cases toEvent c <;> rfl

/-- The step on an offered item. -/
theorem step_offered {s : State} {i : Instr} {rest : List Byte} (hh : s.held = none)
    (hd : decode s.schedule = .ok i rest) : step s = exec i (s.setSchedule rest) := by
  cases hs : s.schedule with
  | nil =>
    rw [hs] at hd
    simp [decode] at hd
  | cons b t =>
    rw [hs] at hd
    simp [step, choose, chooseOffered, hh, hs, hd]

/-- The ways bytes that are no item go. -/
theorem chooseRefused_cases (s : State) (e : DecodeError) :
    (∃ f rest, splitFrame s.schedule = some (f, rest) ∧
      chooseRefused s e = .run (.rxPushSeq f) (s.setSchedule rest)) ∨
    (splitFrame s.schedule = none ∧ chooseRefused s e = .bad e) := by
  unfold chooseRefused
  cases splitFrame s.schedule with
  | none => exact .inr ⟨rfl, rfl⟩
  | some q => exact .inl ⟨q.1, q.2, rfl, rfl⟩

/-- A frame split off is one (R60, R62), and it is followed by the rest. -/
theorem splitFrame_some {bs f rest : List Byte} (h : splitFrame bs = some (f, rest)) :
    bs = f ++ rest ∧ f.length = frameLenAt .le f ∧ 10 ≤ f.length ∧ syncAt f 0 := by
  unfold splitFrame at h
  split_ifs at h with hc
  obtain ⟨h0, h1, hl⟩ := hc
  obtain ⟨rfl, rfl⟩ := Prod.mk.inj (Option.some.inj h)
  have hten : 10 ≤ frameLenAt .le bs := Nat.le_add_right 10 _
  have hl' : frameLenAt .le bs ≤ bs.length := hl
  have hlen : (bs.take (frameLenAt .le bs)).length = frameLenAt .le bs := by
    rw [List.length_take]
    omega
  have hb : ∀ k, k < 10 → byteAt (bs.take (frameLenAt .le bs)) k = byteAt bs k := by
    intro k hk
    simp only [byteAt, List.getD_eq_getElem?_getD, List.getElem?_take]
    rw [if_pos (by omega)]
  have hs : ∀ k b, k < 10 → byteAt bs k = b → (bs.take (frameLenAt .le bs))[k]? = some b := by
    intro k b hk hv
    have hk' : k < (bs.take (frameLenAt .le bs)).length := by omega
    rw [List.getElem?_eq_getElem hk', ← hv, ← hb k hk]
    simp [byteAt, List.getElem?_eq_getElem hk']
  refine ⟨(List.take_append_drop _ _).symm, ?_, ?_, hs 0 _ (by omega) h0, hs 1 _ (by omega) h1⟩
  · show (bs.take (frameLenAt .le bs)).length = frameLenAt .le (bs.take (frameLenAt .le bs))
    rw [hlen]
    simp only [frameLenAt, payloadLenAt] at hb ⊢
    rw [hb 7 (by omega), hb 8 (by omega)]
  · show 10 ≤ (bs.take (frameLenAt .le bs)).length
    omega

/-- A frame at the head of the bytes is split off. -/
theorem splitFrame_append (f rest : List Byte) (hl : 10 ≤ f.length) (hs : syncAt f 0) (hf : frameLenAt .le f = f.length) :
    splitFrame (f ++ rest) = some (f, rest) := by
  have hb : ∀ k, k < 10 → byteAt (f ++ rest) k = byteAt f k := fun k hk => byteAt_append f rest k (by omega)
  have hlen : frameLenAt Config.lenOrder (f ++ rest) = f.length := by
    rw [← hf]
    show frameLenAt .le (f ++ rest) = frameLenAt .le f
    simp only [frameLenAt, payloadLenAt]
    rw [hb 7 (by omega), hb 8 (by omega)]
  have h0 : byteAt f 0 = Config.sync0 := by simp [byteAt, hs.1, Config.sync0]
  have h1 : byteAt f 1 = Config.sync1 := by
    have := hs.2
    simp only [Nat.zero_add] at this
    simp [byteAt, this, Config.sync1]
  unfold splitFrame
  rw [if_pos ⟨(hb 0 (by omega)).trans h0, (hb 1 (by omega)).trans h1, by rw [hlen, List.length_append]; omega⟩, hlen]
  simp

/-- Everything a step can run: a held submission, the TX engine, the offered item, or a frame that is no message. -/
theorem choose_cases (s : State) :
    (∃ i, s.held = some i ∧ choose s = .run i (s.setHeld none)) ∨
    choose s = .run .txStep s ∨
    (∃ i rest, decode s.schedule = .ok i rest ∧ choose s = .run i (s.setSchedule rest)) ∨
    (∃ e f rest, decode s.schedule = .bad e ∧ splitFrame s.schedule = some (f, rest) ∧
      choose s = .run (.rxPushSeq f) (s.setSchedule rest)) ∨
    (∃ e, s.schedule ≠ [] ∧ decode s.schedule = .bad e ∧ splitFrame s.schedule = none ∧ choose s = .bad e) := by
  have offered : chooseOffered s = .run .txStep s ∨
      (∃ i rest, decode s.schedule = .ok i rest ∧ chooseOffered s = .run i (s.setSchedule rest)) ∨
      (∃ e f rest, decode s.schedule = .bad e ∧ splitFrame s.schedule = some (f, rest) ∧
        chooseOffered s = .run (.rxPushSeq f) (s.setSchedule rest)) ∨
      (∃ e, s.schedule ≠ [] ∧ decode s.schedule = .bad e ∧ splitFrame s.schedule = none ∧ chooseOffered s = .bad e) := by
    unfold chooseOffered
    split
    · exact .inl rfl
    · rename_i b bs hs
      split
      · rename_i i rest hd
        split_ifs
        · exact .inl rfl
        · exact .inr (.inl ⟨i, rest, hs ▸ hd, rfl⟩)
      · rename_i e hd
        rcases chooseRefused_cases s e with ⟨f, rest, hf, hc⟩ | ⟨hf, hc⟩
        · exact .inr (.inr (.inl ⟨e, f, rest, hs ▸ hd, hf, hc⟩))
        · exact .inr (.inr (.inr ⟨e, by rw [hs]; simp, hs ▸ hd, hf, hc⟩))
  unfold choose
  split
  · rename_i i hi
    split_ifs
    · exact .inl ⟨i, hi, rfl⟩
    · exact .inr offered
  · exact .inr offered

end Sys2Proof.Machine
end

