-- ==== Sys2Proof/Laws/Schedule.lean ====
section
/-! SUPPORT. The machine's step beside the step relation of spec/10_state.md R32: a transaction reads the block alone and
nothing around it, every run of enabled transactions in any order (spec/44_ports.md R177) is what the machine does on the
schedule that lists them, and the machine does nothing but transactions. -/

namespace Sys2Proof.Machine

/-! ### What stands around a block plays no part in a transaction -/

/-- The same block with other surroundings. -/
def State.withOwn (s : State) (r : Response) (h : Option Instr) (v : List Byte) : State :=
  { s with resp := r, held := h, schedule := v }

theorem deliver_withOwn (s : State) (r : Response) (h : Option Instr) (v : List Byte) (c : Command) :
    deliver (s.withOwn r h v) c = (deliver s c).withOwn r h v := by
  unfold deliver
  cases toEvent c with
  | ok e =>
    simp only [deliverEvent]
    by_cases hl : s.outq.length < Config.outqDepth
    · rw [if_pos hl, if_pos (by exact hl)]
      rfl
    · rw [if_neg hl, if_neg (by exact hl)]
      rfl
  | error e => cases e <;> rfl

theorem deliverAll_withOwn (cs : List Command) (s : State) (r : Response) (h : Option Instr) (v : List Byte) :
    cs.foldl deliver (s.withOwn r h v) = (cs.foldl deliver s).withOwn r h v := by
  induction cs generalizing s with
  | nil => rfl
  | cons c cs ih => simp only [List.foldl_cons, deliver_withOwn, ih]

theorem receivePass_withOwn (s : State) (r : Response) (h : Option Instr) (v : List Byte) :
    receivePass (s.withOwn r h v) = (receivePass s).withOwn r h v := by
  rw [receivePass_eq, receivePass_eq, ← deliverAll_withOwn]
  rfl

theorem pushByte_withOwn (s : State) (r : Response) (h : Option Instr) (v : List Byte) (b : Byte) :
    pushByte (s.withOwn r h v) b = (pushByte s b).withOwn r h v := by
  rw [pushByte_eq, pushByte_eq, ← receivePass_withOwn]
  rfl

theorem pushBytes_withOwn (bs : List Byte) (s : State) (r : Response) (h : Option Instr) (v : List Byte) :
    pushBytes (s.withOwn r h v) bs = (pushBytes s bs).withOwn r h v := by
  induction bs generalizing s with
  | nil => rfl
  | cons b bs ih => simp only [pushBytes_cons, pushByte_withOwn, ih]

/-- An enabled transaction takes the block b to one block c and gives one answer back (TX_STEP none), whatever stands around
the block, and leaves what is held and what is offered. -/
theorem exec_block (i : Instr) (b : Block) (hen : enabled i b.alone = true) :
    ∃ (c : Block) (a : Option Response), ∀ (r : Response) (h : Option Instr) (v : List Byte),
      exec i ⟨b, r, h, v⟩ = .next ⟨c, a.getD r, h, v⟩ := by
  have recv : ∀ f : List Byte, ∃ (c : Block) (a : Option Response), ∀ (r : Response) (h : Option Instr) (v : List Byte),
      (Host.Outcome.next (receiveFrame ⟨b, r, h, v⟩ f) : Result) = .next ⟨c, a.getD r, h, v⟩ := fun f =>
    ⟨(pushBytes b.alone f).toBlock, some .nothing, fun r h v =>
      congrArg (fun t => Host.Outcome.next (t.setResp .nothing)) (pushBytes_withOwn f b.alone r h v)⟩
  have sub : ∀ (j : Instr) (q : Except MapError Command), b.alone.txqHasRoom = true →
      ∃ (c : Block) (a : Option Response), ∀ (r : Response) (h : Option Instr) (v : List Byte),
        (Host.Outcome.next (submit ⟨b, r, h, v⟩ j q) : Result) = .next ⟨c, a.getD r, h, v⟩ := by
    intro j q hr
    have hl : b.txq.length < 10 := (State.txqHasRoom_iff b.alone).mp hr
    cases q with
    | ok c =>
      exact ⟨{ b with txq := b.txq ++ [c] }, some .accepted, fun r h v =>
        congrArg _ (submit_ok (s := ⟨b, r, h, v⟩) hl j c)⟩
    | error e => exact ⟨b, some (.error e), fun r h v => congrArg _ (submit_error (s := ⟨b, r, h, v⟩) hl j e)⟩
  cases i with
  | setPositionRequest x y => exact sub _ _ hen
  | getPositionRequest => exact sub _ _ hen
  | setPositionAck rsv => exact recv _
  | positionReached rsv x y => exact recv _
  | getPositionResponse rsv x y flag => exact recv _
  | errorResponse cmd rsv cause => exact recv _
  | checksum bs => exact ⟨b, some _, fun _ _ _ => rfl⟩
  | decodePass =>
    exact ⟨(receivePass b.alone).toBlock, some (.commands (decodeFrames .le b.rxbuf).commands), fun r h v =>
      congrArg (fun t : State => Host.Outcome.next (t.setResp (.commands (decodeFrames .le b.rxbuf).commands)))
        (receivePass_withOwn b.alone r h v)⟩
  | encode c =>
    simp only [exec, execEncode]
    cases encodeFrame Config.lenOrder c with
    | ok f => exact ⟨b, some _, fun _ _ _ => rfl⟩
    | error e => exact ⟨b, some _, fun _ _ _ => rfl⟩
  | toEvent c =>
    simp only [exec, execToEvent]
    cases Machine.toEvent c with
    | ok e => exact ⟨b, some _, fun _ _ _ => rfl⟩
    | error e => exact ⟨b, some _, fun _ _ _ => rfl⟩
  | toCommand r =>
    simp only [exec, execToCommand]
    cases recordCommand r with
    | ok c => exact ⟨b, some _, fun _ _ _ => rfl⟩
    | error e => exact ⟨b, some _, fun _ _ _ => rfl⟩
  | rxPush x => exact recv [x]
  | outPop =>
    obtain ⟨rx, oq, tq, tx, cnt⟩ := b
    cases oq with
    | nil => exact ⟨⟨rx, [], tq, tx, cnt⟩, some (.event emptyRecord), fun _ _ _ => rfl⟩
    | cons e rest => exact ⟨⟨rx, rest, tq, tx, cnt⟩, some (.event (eventRecord e)), fun _ _ _ => rfl⟩
  | txSubmitCmd r => exact sub _ _ hen
  | txSubmitReq r => exact sub _ _ hen
  | txStep =>
    obtain ⟨rx, oq, tq, tx, cnt⟩ := b
    cases tq with
    | nil => exact ⟨⟨rx, oq, [], tx, cnt⟩, none, fun _ _ _ => rfl⟩
    | cons c rest =>
      simp only [exec, execTxStep, txEngine, transmit]
      cases encodeFrame Config.lenOrder c with
      | ok f => exact ⟨⟨rx, oq, rest, tx ++ f, cnt.incTxFrames⟩, none, fun _ _ _ => rfl⟩
      | error e => exact ⟨⟨rx, oq, rest, tx, cnt.incTxEncErr⟩, none, fun _ _ _ => rfl⟩
  | statRead n => exact ⟨b, some (.counter (b.cnt.read n)), fun _ _ _ => rfl⟩
  | reset => exact ⟨(clear b.alone).toBlock, some .nothing, fun _ _ _ => rfl⟩
  | rxPushSeq bs => exact recv bs

/-- A presentable, enabled transaction occurs. -/
theorem occurs_of_enabled {i : Instr} {b : Block} (hw : i.wellFormed = true) (hen : enabled i b.alone = true) :
    ∃ c r, Occurs i b c r := by
  obtain ⟨c, a, ha⟩ := exec_block i b hen
  exact ⟨c, a.getD .nothing, hw, hen, ha _ _ _⟩

/-- What occurs in a block occurs whatever stands around it, and leaves what is held and what is offered. -/
theorem Occurs.exec {i : Instr} {b c : Block} {r : Response} (ho : Occurs i b c r) (s : State) (hs : s.toBlock = b) :
    ∃ r', exec i s = .next ⟨c, r', s.held, s.schedule⟩ := by
  obtain ⟨-, hen, hex⟩ := ho
  obtain ⟨c', a, ha⟩ := exec_block i b hen
  have hc : (⟨c, r, none, []⟩ : State) = ⟨c', a.getD .nothing, none, []⟩ :=
    Host.Outcome.next.inj (hex.symm.trans (ha .nothing none []))
  obtain rfl : c = c' := congrArg State.toBlock hc
  subst hs
  exact ⟨_, ha s.resp s.held s.schedule⟩

/-- Whether a transaction is enabled is the block's affair alone. -/
theorem enabled_alone (i : Instr) (s : State) : enabled i s.toBlock.alone = enabled i s := by
  cases i <;> rfl

/-! ### The machine's step and the step relation -/

/-- Every order of enabled transactions is a run of the machine: the one on the schedule that lists them. That every
presentable item is read back from its encoding is the premise. -/
theorem run_follows_order (hd : ∀ (i : Instr) (bs : List Byte), i.wellFormed = true → decode (encode i ++ bs) = .ok i bs)
    (is : List Instr) {b d : Block} (h : Run is b d) (rest : List Byte) (s : State) (hs : s.toBlock = b)
    (hh : s.held = none) (hsch : s.schedule = is.flatMap encode ++ rest) :
    ∃ r, Sys2Proof.core.run is.length s = .next ⟨d, r, none, rest⟩ := by
  induction is generalizing b s with
  | nil =>
    obtain rfl : d = b := h
    subst hs
    refine ⟨s.resp, ?_⟩
    rw [← hh, ← show s.schedule = rest from hsch]
    rfl
  | cons i is ih =>
    obtain ⟨c, r, ho, hr⟩ := h
    have hdec : decode s.schedule = .ok i (is.flatMap encode ++ rest) := by
      rw [hsch, List.flatMap_cons, List.append_assoc]
      exact hd i _ ho.1
    obtain ⟨r', he⟩ := ho.exec (s.setSchedule (is.flatMap encode ++ rest)) hs
    have hstep : Sys2Proof.core.step s = .next ⟨c, r', s.held, is.flatMap encode ++ rest⟩ :=
      (step_offered hh hdec).trans he
    simp only [List.length_cons, Host.Core.run, hstep]
    exact ih hr _ rfl hh rfl

/-- The machine does nothing but transactions: a step is exec of one that can be presented, in a state of the same block,
and if that one is enabled (it need not be: log entries 4 and 5), the step relation has it. That what decodes can be
presented is the premise. -/
theorem step_is_transaction (hd : ∀ (bs rest : List Byte) (i : Instr), decode bs = .ok i rest → i.wellFormed = true)
    {s t : State} (hh : ∀ i, s.held = some i → i.wellFormed = true) (h : step s = .next t) :
    ∃ i u, i.wellFormed = true ∧ u.toBlock = s.toBlock ∧ exec i u = .next t ∧
      (enabled i s = true → ∃ r, Occurs i s.toBlock t.toBlock r) := by
  have key : ∀ (i : Instr) (u : State), i.wellFormed = true → u.toBlock = s.toBlock → exec i u = .next t →
      (enabled i s = true → ∃ r, Occurs i s.toBlock t.toBlock r) := by
    intro i u hw hu he hen
    obtain ⟨c, r, ho⟩ := occurs_of_enabled hw ((enabled_alone i s).trans hen)
    obtain ⟨r', he'⟩ := ho.exec u hu
    obtain rfl := Host.Outcome.next.inj (he.symm.trans he')
    exact ⟨r, ho⟩
  have out : ∀ (i : Instr) (u : State), i.wellFormed = true → u.toBlock = s.toBlock → exec i u = .next t →
      ∃ i u, i.wellFormed = true ∧ u.toBlock = s.toBlock ∧ exec i u = .next t ∧
        (enabled i s = true → ∃ r, Occurs i s.toBlock t.toBlock r) := fun i u hw hu he =>
    ⟨i, u, hw, hu, he, key i u hw hu he⟩
  unfold step at h
  rcases choose_cases s with ⟨i, hi, hc⟩ | hc | ⟨i, rest, hdec, hc⟩ | ⟨e, f, rest, -, hf, hc⟩ | ⟨e, -, -, -, hc⟩ <;>
    rw [hc] at h
  · exact out i (s.setHeld none) (hh i hi) rfl h
  · exact out .txStep s rfl rfl h
  · exact out i (s.setSchedule rest) (hd _ _ _ hdec) rfl h
  · refine out (.rxPushSeq f) (s.setSchedule rest) ?_ rfl h
    obtain ⟨-, -, hl, -⟩ := splitFrame_some hf
    cases f with
    | nil => simp at hl
    | cons x xs => rfl
  · simp at h

end Sys2Proof.Machine
end

