-- ==== Sys2Proof/Tests/Slice0.lean ====
section
/-! SUPPORT. Tests: what WellFormed refuses, one item read for every constructor, one or two steps for each instruction,
and for each statement with hypotheses a witness that meets them. Expected results are those of
spec/95_test_vectors.md, named beside each test, or of the rule named there; the bytes of the items that are no frame are
those of log entry 2. -/

namespace Sys2Proof.Tests

open Sys2Proof Sys2Proof.Machine

/-! ### Helpers -/

/-- The state a step answers. -/
def nextOf (o : Host.Outcome State Fault Refusal) : Option State :=
  match o with
  | .next s => some s
  | .fault _ => none
  | .refused _ => none

/-- The state after RESET with RXBUF, OUTQ and TXQ given. -/
def blockWith (rx : List Byte) (oq : List Event) (tq : List Command) : State :=
  { State.reset with rxbuf := rx, outq := oq, txq := tq }

/-- The GetPosition request as a Command. -/
def getPos : Command := ⟨[0x33], none, []⟩

/-- The same as a record at the port, with status bits that play no part (log entry 23). -/
def getPosRecord : CommandRecord := ⟨[0x33], false, 5, []⟩

/-- The frame of V-ENC-2. -/
def getPosFrame : List Byte := [0x55, 0xAA, 0x33, 0, 0, 0, 0, 0, 0, 0x33]

/-- The SetPositionAck frame of V-SRC-5. -/
def ackFrame : List Byte := [0x55, 0xAA, 0x91, 0, 0, 0, 0, 0, 0x20, 0xB1]

/-- The corrupt frame of V-SRC-6. -/
def badFrame : List Byte := [0x55, 0xAA, 0x91, 0, 0, 0, 0, 0, 0x20, 0xB0]

/-- A full TXQ. -/
def tenCommands : List Command := List.replicate 10 getPos

/-- A full OUTQ. -/
def tenEvents : List Event := List.replicate 10 .setPositionAck

/-! ### WellFormed refuses (R78, R81) -/

theorem test_encode_payload_too_long : (Instr.encode ⟨[0x31], none, List.replicate 8192 0⟩).wellFormed = false := by
  decide +kernel

theorem test_toEvent_payload_too_long :
    (Instr.toEvent ⟨[0x91], some 2, List.replicate 8192 0⟩).wellFormed = false := by
  decide +kernel

theorem test_submit_payload_too_long :
    (Instr.txSubmitCmd ⟨[], false, 0, List.replicate 8192 0⟩).wellFormed = false := by
  have h : (CommandRecord.command ⟨[], false, 0, List.replicate 8192 0⟩).payloadFits = false := by decide +kernel
  simp only [Instr.wellFormed, h, Bool.false_and]

theorem test_submit_cmd_type_too_long :
    (Instr.txSubmitCmd ⟨List.replicate (Config.cmdLenMax + 1) 0, false, 0, []⟩).wellFormed = false := by
  simp [Instr.wellFormed, Command.cmdFits, CommandRecord.command]

theorem test_empty_sequence_refused : (Instr.rxPushSeq []).wellFormed = false := by decide

theorem test_longest_payload_fits : (Instr.encode ⟨[0x31], none, List.replicate 8191 0⟩).wellFormed = true := by
  decide +kernel

/-! ### One item for every constructor: frames from R60 and V-SRC-1, V-SRC-5, V-DEC-5 -/

theorem test_decode_setPositionRequest :
    decode [0x55, 0xAA, 0x31, 0, 0, 0, 0, 8, 0, 0, 0, 0x80, 0x3F, 0, 0, 0, 0x40, 0xC6, 7] =
      .ok (.setPositionRequest 0x3F800000 0x40000000) [7] := by decide

theorem test_decode_getPositionRequest :
    decode [0x55, 0xAA, 0x33, 0, 0, 0, 0, 0, 0, 0x33] = .ok .getPositionRequest [] := by decide

theorem test_decode_setPositionAck :
    decode [0x55, 0xAA, 0x91, 1, 2, 3, 4, 0, 0x20, 0xB5] = .ok (.setPositionAck ⟨1, 2, 3, 4⟩) [] := by decide

theorem test_decode_positionReached :
    decode [0x55, 0xAA, 0x91, 0, 0, 0, 0, 8, 0x40, 0, 0, 0x80, 0x3F, 0, 0, 0, 0x40, 0x26] =
      .ok (.positionReached Reserved.zero 0x3F800000 0x40000000) [] := by decide

theorem test_decode_getPositionResponse :
    decode [0x55, 0xAA, 0x93, 0, 0, 0, 0, 9, 0x40, 0, 0, 0x40, 0x40, 0, 0, 0x80, 0x40, 7, 0x1D] =
      .ok (.getPositionResponse Reserved.zero 0x40400000 0x40800000 7) [] := by decide

theorem test_decode_errorResponse :
    decode [0x55, 0xAA, 0x93, 0, 0, 0, 0, 1, 0x60, 0x42, 0xB0] = .ok (.errorResponse 0x93 Reserved.zero 0x42) [] := by
  decide

theorem test_decode_checksum : decode [0x01, 1, 0xFF, 1, 0x20, 0, 9] = .ok (.checksum [0xFF, 0x20]) [9] := by decide

theorem test_decode_decodePass : decode [0x02, 9] = .ok .decodePass [9] := by decide

theorem test_decode_encode : decode [0x03, 1, 0x91, 0, 0x03, 1, 0, 1] = .ok (.encode ⟨[0x91], some 3, [1]⟩) [] := by
  decide

theorem test_decode_toEvent : decode [0x04, 1, 0x91, 0, 0x01, 0, 0] = .ok (.toEvent ⟨[0x91], some 1, []⟩) [] := by
  decide

theorem test_decode_toCommand :
    decode [0x05, 5, 0, 0, 0x80, 0x3F, 0, 0, 0, 0x40, 0, 0] =
      .ok (.toCommand ⟨5, 0x3F800000, 0x40000000, 0, 0⟩) [] := by decide

theorem test_decode_rxPush : decode [0x10, 0x55] = .ok (.rxPush 0x55) [] := by decide

theorem test_decode_outPop : decode [0x11] = .ok .outPop [] := by decide

/-- R78's fields: status_present = 0 with status bits 101, which the model takes as they are (log entry 23). -/
theorem test_decode_txSubmitCmd :
    decode [0x12, 0, 5, 1, 0, 0xAA] = .ok (.txSubmitCmd ⟨[], false, 5, [0xAA]⟩) [] := by
  have h : (CommandRecord.command ⟨[], false, 5, [0xAA]⟩).cmdFits = true := by simp [Command.cmdFits, CommandRecord.command]
  have p : parseCommandRecord [0, 5, 1, 0, 0xAA] = .got ⟨[], false, 5, [0xAA]⟩ [] := by decide
  have d : decode [0x12, 0, 5, 1, 0, 0xAA] = decodeSubmitCmd [0, 5, 1, 0, 0xAA] := by simp [decode, Config.sync0]
  rw [d, decodeSubmitCmd, p]
  simp only [Parsed.andThen, h, if_true]

theorem test_decode_txSubmitReq :
    decode [0x13, 6, 0, 0, 0, 0, 0, 0, 0, 0, 0, 0] = .ok (.txSubmitReq ⟨6, 0, 0, 0, 0⟩) [] := by decide

theorem test_decode_txStep : decode [0x14] = .ok .txStep [] := by decide

theorem test_decode_statRead : decode [0x15, 7] = .ok (.statRead 7) [] := by decide

theorem test_decode_reset : decode [0x16] = .ok .reset [] := by decide

theorem test_decode_rxPushSeq : decode [0x17, 1, 0x55, 1, 0xAA, 0] = .ok (.rxPushSeq [0x55, 0xAA]) [] := by decide

/-! ### What is no item -/

theorem test_decode_rejects :
    decode [] = .bad .truncated ∧ decode [0x55, 0xAA, 0x91] = .bad .truncated ∧
    decode [0x06] = .bad .unknownOpcode ∧
    decode [0x55, 0xAB, 0x91, 0, 0, 0, 0, 0, 0x20, 0xB1] = .bad .badSync ∧
    decode badFrame = .bad .badChecksum ∧
    decode [0x55, 0xAA, 0x91, 0, 0, 0, 0, 0, 0xA0, 0x31] = .bad .notInMessageMap ∧
    decode [0x55, 0xAA, 0x33, 1, 0, 0, 0, 0, 0, 0x32] = .bad .reservedNotZero ∧
    decode [0x01, 2] = .bad .badMarker ∧ decode [0x03, 0, 0x09, 0, 0] = .bad .badStatusByte ∧
    decode [0x03, 0, 0, 0, 0x20] = .bad .badPayloadLength ∧
    decode [0x05, 8, 0, 0, 0, 0, 0, 0, 0, 0, 0, 0] = .bad .badKind ∧
    decode [0x15, 8] = .bad .badCounterNumber ∧ decode [0x17, 0] = .bad .emptySequence := by decide

/-! ### The opcode table's words (R80): keys, and a header as the table writes it, byte 0 first -/

theorem test_table_keys :
    decodeTableWord 16 0x188 = some (.setPositionRequest 0 0) ∧
    decodeTableWord 16 0x198 = some .getPositionRequest ∧
    decodeTableWord 16 0x489 = some (.setPositionAck Reserved.zero) ∧
    decodeTableWord 16 0x48A = some (.positionReached Reserved.zero 0 0) ∧
    decodeTableWord 16 0x49A = some (.getPositionResponse Reserved.zero 0 0 0) ∧
    decodeTableWord 8 3 = some (.errorResponse 0 Reserved.zero 0) := by decide

theorem test_table_header :
    decodeTableWord 72 0x55AA91000000000020 = some (.setPositionAck Reserved.zero) ∧
    decodeTableWord 72 0x20000000000091AA55 = some (.setPositionAck Reserved.zero) := by decide

theorem test_fetch_word_runs :
    (nextOf (step (State.reset.withFetchWord 16 0x489))).map (fun s => (s.outq, s.schedule)) =
      some ([.setPositionAck], []) := by decide

/-! ### Steps: functions -/

/-- V-CK-5 and V-CK-6. -/
theorem test_checksum :
    (nextOf (exec (.checksum [0x91, 0, 0, 0, 0, 0, 0x20]) State.reset)).map (·.resp) = some (.checksum 0xB1) ∧
    (nextOf (exec (.checksum [0x91, 1, 2, 3, 4, 0, 0x20]) State.reset)).map (·.resp) = some (.checksum 0xB5) := by decide

/-- V-DEC-6: a frame whose length bit 3 was flipped from 8 to 0. -/
theorem test_decodePass_corrupt_length :
    (nextOf (exec .decodePass
      (blockWith [0x55, 0xAA, 0x91, 0, 0, 0, 0, 0, 0x40, 0, 0, 0x80, 0x3F, 0, 0, 0, 0x40, 0x26] [] []))).map
        (fun s => (s.resp, s.rxbuf, s.cnt.framesBad)) =
      some (.commands [], [0x00, 0x80, 0x3F, 0, 0, 0, 0x40, 0x26], 1) := by decide

/-- V-DEC-3: noise before a frame. -/
theorem test_decodePass_noise :
    (nextOf (exec .decodePass (blockWith (0x55 :: getPosFrame) [] []))).map (fun s => (s.resp, s.rxbuf, s.cnt.framesOk)) =
      some (.commands [⟨[0x33], some 0, []⟩], [], 1) := by decide

/-- V-ENC-4 and V-ENC-6. -/
theorem test_encode :
    (nextOf (exec (.encode ⟨[0x91], some 3, [1]⟩) State.reset)).map (·.resp) =
      some (.frame [0x55, 0xAA, 0x91, 0, 0, 0, 0, 1, 0, 1, 0x91]) ∧
    (nextOf (exec (.encode ⟨[0x31, 0], none, []⟩) State.reset)).map (·.resp) = some (.error .invalidCommandType) := by
  decide

/-- V-MAP-3 and V-MAP-11. -/
theorem test_toEvent :
    (nextOf (exec (.toEvent ⟨[0x93], some 2, [0, 0, 0x40, 0x40, 0, 0, 0x80, 0x40, 7]⟩) State.reset)).map (·.resp) =
      some (.mapped (.getPositionResponse 0x40400000 0x40800000 7)) ∧
    (nextOf (exec (.toEvent ⟨[0x12], some 3, []⟩) State.reset)).map (·.resp) = some (.error .invalidPayload) := by decide

/-- V-REQ-3 and V-REQ-8. -/
theorem test_toCommand :
    (nextOf (exec (.toCommand ⟨5, 0xBF000000, 0x42C88000, 9, 9⟩) State.reset)).map (·.resp) =
      some (.command ⟨[0x31], none, [0, 0, 0, 0xBF, 0, 0x80, 0xC8, 0x42]⟩) ∧
    (nextOf (exec (.toCommand ⟨7, 0, 0, 0, 0⟩) State.reset)).map (·.resp) = some (.error .invalidCommandType) := by decide

/-! ### Steps: transactions -/

/-- R170's worked example. -/
theorem test_rxPush :
    (nextOf (exec (.rxPush 0x33) (blockWith [0x55, 0xAA, 0x33, 0, 0, 0, 0, 0, 0] [] []))).map
        (fun s => (s.rxbuf, s.outq, s.cnt.framesOk, s.cnt.mapErrCmdType)) = some ([], [], 1, 1) := by decide

/-- V-DEC-13's rule (R112) at the capacity of this hardware is witnessed below; V-DEC-2: noise is kept. -/
theorem test_rxPush_noise_kept :
    (nextOf (exec (.rxPush 0x55) (blockWith [1, 2, 3] [] []))).map (·.rxbuf) = some [1, 2, 3, 0x55] := by decide

/-- R171's worked example and V-PORT-2. -/
theorem test_outPop :
    (nextOf (exec .outPop (blockWith [] [.setPositionAck] []))).map (fun s => (s.resp, s.outq)) =
      some (.event ⟨1, 0, 0, 0, 0⟩, []) ∧
    (nextOf (exec .outPop State.reset)).map (·.resp) = some (.event ⟨0, 0, 0, 0, 0⟩) := by decide

/-- V-PORT-3: the eleventh submission is held. -/
theorem test_txSubmitCmd :
    (nextOf (exec (.txSubmitCmd getPosRecord) State.reset)).map (fun s => (s.txq, s.resp)) =
      some ([getPos], .accepted) ∧
    (nextOf (exec (.txSubmitCmd getPosRecord) (blockWith [] [] tenCommands))).map (fun s => (s.txq, s.resp)) =
      some (tenCommands, .held) := by decide

/-- V-PORT-4. -/
theorem test_txSubmitReq :
    (nextOf (exec (.txSubmitReq ⟨4, 0, 0, 0, 1⟩) State.reset)).map (fun s => (s.txq, s.resp)) =
      some ([], .error .invalidCommandType) := by decide

/-- R174's worked example and V-PORT-6. -/
theorem test_txStep :
    (nextOf (exec .txStep (blockWith [] [] [getPos]))).map (fun s => (s.txq, s.txout, s.cnt.txFrames)) =
      some ([], getPosFrame, 1) ∧
    (nextOf (exec .txStep (blockWith [] [] [⟨[], none, []⟩]))).map (fun s => (s.txq, s.txout, s.cnt.txEncErr)) =
      some ([], [], 1) := by decide

/-- R175 and V-PORT-5, with every counter set to its own value. -/
theorem test_statRead :
    (nextOf (exec (.statRead 4) { State.reset with cnt := ⟨10, 11, 12, 13, 14, 15, 16, 17⟩ })).map (·.resp) =
      some (.counter 14) ∧
    (nextOf (exec (.statRead 7) { State.reset with cnt := ⟨10, 11, 12, 13, 14, 15, 16, 17⟩ })).map (·.resp) =
      some (.counter 0) := by decide

/-- R220's worked example, and TXOUT kept. -/
theorem test_reset :
    nextOf (exec .reset { blockWith [0x55, 0xAA, 0x91] [.setPositionAck] [getPos] with
      txout := [7], cnt := ⟨3, 1, 1, 1, 1, 1, 1, 0⟩ }) = some { State.reset with txout := [7] } := by decide

/-- V-SRC-4, and a full OUTQ drops the newest Event (R227). -/
theorem test_rxPushSeq :
    (nextOf (exec (.rxPushSeq ackFrame) State.reset)).map (fun s => (s.outq, s.rxbuf)) = some ([.setPositionAck], []) ∧
    (nextOf (exec (.rxPushSeq ackFrame) (blockWith [] tenEvents []))).map
      (fun s => (s.outq.length, s.cnt.outDrops, s.cnt.framesOk)) = some (10, 1, 1) := by decide

/-! ### Steps: messages -/

/-- P2: the request is queued as its Command. -/
theorem test_setPositionRequest :
    (nextOf (exec (.setPositionRequest 0x3F800000 0x40000000) State.reset)).map (·.txq) =
      some [⟨[0x31], none, [0, 0, 0x80, 0x3F, 0, 0, 0, 0x40]⟩] := by decide

theorem test_getPositionRequest : (nextOf (exec .getPositionRequest State.reset)).map (·.txq) = some [getPos] := by decide

/-- V-DEC-5: reserved bytes are ignored. -/
theorem test_setPositionAck :
    (nextOf (exec (.setPositionAck ⟨1, 2, 3, 4⟩) State.reset)).map (fun s => (s.outq, s.cnt.framesOk)) =
      some ([.setPositionAck], 1) := by decide

/-- V-SRC-5. -/
theorem test_positionReached :
    (nextOf (exec (.positionReached Reserved.zero 0x3F800000 0x40000000) State.reset)).map (·.outq) =
      some [.positionReached 0x3F800000 0x40000000] := by decide +kernel

/-- V-SRC-5. -/
theorem test_getPositionResponse :
    (nextOf (exec (.getPositionResponse Reserved.zero 0x40400000 0x40800000 7) State.reset)).map (·.outq) =
      some [.getPositionResponse 0x40400000 0x40800000 7] := by decide +kernel

/-- P4's second frame, and a message swallowed by the frame RXBUF waits for (R226). -/
theorem test_errorResponse :
    (nextOf (exec (.errorResponse 0x93 Reserved.zero 0x42) State.reset)).map (·.outq) =
      some [.errorResponse .unspecifiedError] ∧
    (nextOf (exec (.errorResponse 0x93 Reserved.zero 0x42)
      (blockWith [0x55, 0xAA, 0, 0, 0, 0, 0, 0x10, 0] [] []))).map (fun s => (s.outq, s.rxbuf.length)) =
      some ([], 20) := by decide

/-! ### Steps of the machine -/

/-- V-PORT-3: the TX engine makes room for a held submission. -/
theorem test_step_held :
    (nextOf (step { blockWith [] [] tenCommands with held := some .getPositionRequest })).map
      (fun s => (s.txq.length, s.txout, s.held)) = some (9, getPosFrame, some .getPositionRequest) := by decide

/-- R172, R177: while a submission is held the other ports go on. -/
theorem test_step_held_other_port :
    (nextOf (step { blockWith [] [] tenCommands with held := some .getPositionRequest, schedule := [0x10, 7, 0x14] })).map
      (fun s => (s.rxbuf, s.txq.length, s.held, s.schedule)) = some ([7], 10, some .getPositionRequest, [0x14]) := by
  decide

/-- R106, R178: a corrupt frame that the host offers is received and counted. -/
theorem test_step_corrupt_frame :
    (nextOf (step { State.reset with schedule := badFrame ++ [0x14] })).map
      (fun s => (s.rxbuf, s.cnt.framesBad, s.schedule)) = some ([], 1, [0x14]) := by decide

theorem test_step_refuses :
    step { State.reset with schedule := [0x06] } = .refused (.notAnItem .unknownOpcode) ∧
    step { State.reset with schedule := [0x12, 0, 0, 0, 0x20] } = .refused (.notPresentable .badPayloadLength) :=
  ⟨rfl, rfl⟩

/-! ### Witnesses: values that meet the hypotheses of each statement, at the ends of their ranges -/

theorem witness_ChecksumIsItsOwnInverse :
    (3 ≤ 3 ∧ 3 ≤ [0x55#8, 0xAA#8, 0#8].length) ∧ (3 ≤ 10 ∧ 10 ≤ getPosFrame.length) ∧
    frameValid getPosFrame 10 = true := by decide

theorem witness_ChecksumDetectsSingleFlips :
    10 ≤ getPosFrame.length ∧ frameValid getPosFrame getPosFrame.length = true ∧
    (2 ≤ 2 ∧ 2 < getPosFrame.length ∧ 7 < 8) ∧ (2 ≤ 9 ∧ 9 < getPosFrame.length ∧ 0 < 8 ∧ 2 ≠ 9) ∧
    (2 ≤ 8 ∧ 8 < getPosFrame.length - 1) ∧ 1 < 2 := by decide

theorem witness_LenFlagsInsertion :
    lenFlagsBytes .le (lenFlagsOf 0 8191) = [0xFF, 0x1F] ∧ lenFlagsBytes .be (lenFlagsOf 0 8191) = [0x1F, 0xFF] := by
  decide

theorem witness_StatusCauseAndResultCodes :
    4 ≤ (4#3).toNat ∧ 4 ≤ (7#3).toNat ∧ 8 ≤ (8#8).toNat ∧ 8 ≤ (0xFF#8).toNat := by decide

theorem witness_PortRecordLayout :
    (PortRecord.kind ⟨0, 1, 2, 3, 4⟩ = 0#3 ∨ PortRecord.kind ⟨0, 1, 2, 3, 4⟩ = 7#3) ∧
    (PortRecord.kind ⟨7, 1, 2, 3, 4⟩ = 0#3 ∨ PortRecord.kind ⟨7, 1, 2, 3, 4⟩ = 7#3) := by decide

theorem witness_MessageRowsDisjoint :
    ⟨0x003, 0x007, 1⟩ ∈ keyRows ∧ KeyRow.covers ⟨0x003, 0x007, 1⟩ 0x48B = true := by decide

theorem witness_GoodFrameGivesCommand :
    ([] : List Byte).length ≤ 8191 ∧ (List.replicate 8191 0xAA#8).length ≤ 8191 := by decide +kernel

theorem witness_CorruptFrameDiscardedWhole :
    badFrame = 0x55 :: 0xAA :: badFrame.drop 2 ∧ 10 ≤ badFrame.length ∧ frameLenAt .le badFrame = badFrame.length ∧
    frameValid badFrame badFrame.length = false := by decide

theorem witness_IncompleteFrameWaits :
    ([] : List Byte).length ≤ 8191 ∧ 0 < 10 + ([] : List Byte).length ∧ 9 < 10 + ([] : List Byte).length := by decide

theorem witness_NoiseKeptThenDropped :
    findSync [] = none ∧ findSync [0x55] = none ∧ findSync [0xAA, 0x55] = none := by decide

theorem witness_PassEndsSettled : phase .le (decodeFrames .le [1, 0x55, 0xAA]).rest ≠ .hunt := by decide

theorem witness_TrimChangesNoOutput : findSync [0x11, 0x55] = none := by decide

/-- Bytes 11 hold no sync, however many. -/
theorem test_no_sync_in_elevens (n : Nat) : findSync (List.replicate n 0x11) = none := by
  induction n with
  | zero => rfl
  | succ n ih =>
    cases n with
    | zero => rfl
    | succ n =>
      simp only [List.replicate_succ] at ih ⊢
      rw [findSync_cons_cons, if_neg (by decide), ih]
      rfl

theorem witness_PushIntoFullBufferTrims :
    (blockWith (List.replicate 8201 0x11) [] []).rxbuf.length = 8201 ∧
    settled .le (List.replicate 8201 0x11) ∧ (List.replicate 8201 0x11#8).length = 8201 := by
  refine ⟨List.length_replicate, settled_of_hunt (test_no_sync_in_elevens _), List.length_replicate⟩

theorem witness_DecodePassConsumesHead :
    settled .le [0x55, 0xAA] ∧ ([] : List Byte).length ≤ 8191 ∧
    ackFrame ++ [0x55] = wireFrame .le 0x91 Reserved.zero 1 [] ++ [0x55] ∧ settled .le [0x55] ∧
    badFrame ++ [0x55] = badFrame ++ [0x55] ∧ badFrame = 0x55 :: 0xAA :: badFrame.drop 2 ∧ 10 ≤ badFrame.length ∧
    frameLenAt .le badFrame = badFrame.length ∧ frameValid badFrame badFrame.length = false := by
  refine ⟨.inr (.inl ?_), ?_, ?_, .inl ?_, ?_, ?_, ?_, ?_, ?_⟩ <;> decide

theorem witness_EncoderLayout :
    (List.replicate 8191 0x55#8).length ≤ 8191 ∧ ([] : List Byte).length ≠ 1 ∧ [0x31#8, 0#8].length ≠ 1 := by
  decide +kernel

theorem witness_CodecRoundTrip :
    ([] : List Byte).length ≤ 8191 ∧ (List.replicate 8191 0x55#8).length ≤ 8191 := by decide +kernel

theorem witness_ErrorStatusBeatsCommand : ([] : List Byte).length ≠ 1 ∧ [1#8, 2#8].length ≠ 1 := by decide

theorem witness_CommandNinetyOne :
    [0#8].length ≠ 0 ∧ (List.replicate 7 0#8).length ≠ 8 ∧ (List.replicate 9 0#8).length ≠ 8 ∧
    (0#3 ≠ 1#3 ∧ 0#3 ≠ 2#3 ∧ 0#3 ≠ 3#3) ∧ (4#3 ≠ 1#3 ∧ 4#3 ≠ 2#3 ∧ 4#3 ≠ 3#3) := by decide

theorem witness_CommandNinetyThree :
    (List.replicate 8 0#8).length ≠ 9 ∧ (List.replicate 10 0#8).length ≠ 9 ∧ (1#3 ≠ 2#3 ∧ 1#3 ≠ 3#3) ∧
    (7#3 ≠ 2#3 ∧ 7#3 ≠ 3#3) := by decide

theorem witness_OtherCommandRejected :
    ([] : List Byte) ≠ [0x91] ∧ ([] : List Byte) ≠ [0x93] ∧ [0x91#8, 0] ≠ [0x91] ∧ [0x91#8, 0] ≠ [0x93] ∧ 0#3 ≠ 3#3 := by
  decide

theorem witness_RequestMapper :
    PortRecord.kind ⟨5, 1, 2, 0, 0⟩ = 5#3 ∧ PortRecord.kind ⟨6, 1, 2, 0, 0⟩ = 6#3 ∧
    PortRecord.kind ⟨0, 0, 0, 0, 0⟩ ≠ 5#3 ∧ PortRecord.kind ⟨0, 0, 0, 0, 0⟩ ≠ 6#3 ∧
    PortRecord.kind ⟨4, 0, 0, 0, 0⟩ ≠ 5#3 ∧ PortRecord.kind ⟨4, 0, 0, 0, 0⟩ ≠ 6#3 ∧
    PortRecord.kind ⟨7, 0, 0, 0, 0⟩ ≠ 5#3 ∧ PortRecord.kind ⟨7, 0, 0, 0, 0⟩ ≠ 6#3 := by decide

theorem witness_PushByteOutcome :
    settled .le State.reset.rxbuf ∧ settled .le [0x55, 0xAA, 0x91, 0, 0, 0, 0, 0, 0x20] := by
  refine ⟨.inl ?_, .inr (.inl ?_)⟩ <;> decide

theorem witness_PushSequenceExpands : [0xAA#8] ≠ [] := by decide

theorem witness_PushSequenceIsOnePass :
    settled .le State.reset.rxbuf ∧ State.reset.rxbuf.length + (List.replicate 8201 0#8).length ≤ 8201 := by
  refine ⟨.inl ?_, ?_⟩ <;> decide +kernel

theorem witness_FrameFromHuntIsReceived :
    phase .le (blockWith [0x11, 0x55] [] []).rxbuf = .hunt ∧ (List.replicate 8191 0#8).length ≤ 8191 := by decide +kernel

theorem witness_OutPopTakesHead :
    State.reset.outq = [] ∧ (blockWith [] [.setPositionAck] []).outq = .setPositionAck :: [] := by decide

theorem witness_SubmitCommandQueues : (blockWith [] [] (List.replicate 9 getPos)).txq.length < 10 := by decide

theorem witness_SubmitRequestQueues :
    (blockWith [] [] (List.replicate 9 getPos)).txq.length < 10 ∧ PortRecord.kind ⟨5, 1, 2, 0, 0⟩ = 5#3 ∧
    PortRecord.kind ⟨6, 1, 2, 0, 0⟩ = 6#3 ∧ PortRecord.kind ⟨7, 1, 2, 0, 0⟩ ≠ 5#3 ∧
    PortRecord.kind ⟨7, 1, 2, 0, 0⟩ ≠ 6#3 := by decide

theorem witness_FullQueueHoldsSubmission :
    isSubmission (.txSubmitCmd getPosRecord) = true ∧ isSubmission .getPositionRequest = true ∧
    10 ≤ (blockWith [] [] tenCommands).txq.length := by decide

theorem witness_DisabledTransactionChangesNothing :
    enabled .txStep State.reset = false ∧ enabled .getPositionRequest (blockWith [] [] tenCommands) = false := by decide

theorem witness_HeldSubmissionIsLifted :
    (blockWith [] [] tenCommands).held = none ∧ tenCommands = getPos :: List.replicate 9 getPos ∧
    tenCommands.length = 10 ∧ (Instr.txSubmitCmd getPosRecord).wellFormed = true ∧
    (0x12 :: 1 :: 0x33 :: 0 :: 5 :: 0 :: 0 :: 0x14 :: [9] : List Byte) =
      encode (.txSubmitCmd getPosRecord) ++ (encode .txStep ++ [9]) := by
  refine ⟨rfl, rfl, rfl, ?_, rfl⟩
  simp [Instr.wellFormed, Command.payloadFits, Command.cmdFits, CommandRecord.command, getPosRecord, Config.cmdLenMax]

theorem witness_TxStepSendsHead :
    (blockWith [] [] [getPos]).txq = getPos :: [] ∧ getPos.cmdType = [0x33] ∧
    (Command.cmdType ⟨[], none, []⟩).length ≠ 1 ∧ (Command.cmdType ⟨[0x31, 0], none, []⟩).length ≠ 1 := by decide

theorem witness_QueueDrainsInOrder :
    (blockWith [] [] [getPos, ⟨[], none, []⟩]).held = none ∧ (blockWith [] [] [getPos, ⟨[], none, []⟩]).schedule = [] := by
  decide

theorem witness_CountersWrap :
    (blockWith [] [] [getPos]).txq = ⟨[0x33], none, []⟩ :: [] ∧
    ({ Counters.zero with txFrames := 0xFFFFFFFF } : Counters).txFrames = 0xFFFFFFFF#32 ∧
    (Command.cmdType ⟨[], none, []⟩).length ≠ 1 ∧
    ({ Counters.zero with txEncErr := 0xFFFFFFFF } : Counters).txEncErr = 0xFFFFFFFF#32 ∧
    State.reset.rxbuf = [] ∧ State.reset.outq = [] ∧
    ({ Counters.zero with framesOk := 0xFFFFFFFF } : Counters).framesOk = 0xFFFFFFFF#32 ∧
    (badFrame = 0x55 :: 0xAA :: badFrame.drop 2 ∧ 10 ≤ badFrame.length ∧ frameLenAt .le badFrame = badFrame.length ∧
      frameValid badFrame badFrame.length = false ∧
      ({ Counters.zero with framesBad := 0xFFFFFFFF } : Counters).framesBad = 0xFFFFFFFF#32) ∧
    ({ Counters.zero with mapErrCmdType := 0xFFFFFFFF } : Counters).mapErrCmdType = 0xFFFFFFFF#32 ∧
    ({ Counters.zero with mapErrPayload := 0xFFFFFFFF } : Counters).mapErrPayload = 0xFFFFFFFF#32 ∧
    10 ≤ (blockWith [] tenEvents []).outq.length ∧
    ({ Counters.zero with outDrops := 0xFFFFFFFF } : Counters).outDrops = 0xFFFFFFFF#32 := by decide

/-- The mapping results that the last three clauses ask for: V-MAP-20, V-MAP-16 and V-MAP-1. -/
theorem witness_CountersWrap_mapping :
    toEvent ⟨[0x92], some 1, []⟩ = .error .invalidCommandType ∧
    toEvent ⟨[0x91], some 1, [0]⟩ = .error .invalidPayload ∧
    toEvent ⟨[0x91], some 1, []⟩ = .ok .setPositionAck := ⟨rfl, rfl, rfl⟩

theorem witness_DeviceMessageDelivered :
    messageEvent (.errorResponse 0x12 Reserved.zero 5) = some (.errorResponse .internalError) ∧
    phase .le (blockWith [0x55] [] []).rxbuf = .hunt ∧
    (blockWith [] (List.replicate 9 .setPositionAck) []).outq.length < 10 ∧
    10 ≤ (blockWith [] tenEvents []).outq.length ∧
    phase .le (blockWith [0x55, 0xAA] [] []).rxbuf = .syncHdr ∧
    phase .le (blockWith [0x55, 0xAA, 0, 0, 0, 0, 0, 0x10, 0, 0] [] []).rxbuf = .syncBody := by decide

theorem witness_ReceiveOrderPreserved :
    [Instr.setPositionAck Reserved.zero, .errorResponse 0x91 Reserved.zero 1].map messageEvent =
      [Event.setPositionAck, .errorResponse .checksumError].map some ∧
    [Instr.setPositionAck Reserved.zero, .errorResponse 0x91 Reserved.zero 1] ≠ [] ∧
    phase .le State.reset.rxbuf = .hunt ∧ (List.replicate 8 Event.setPositionAck).length + 2 ≤ 10 := by decide

theorem witness_RequestMessageQueues : (blockWith [] [] (List.replicate 9 getPos)).txq.length < 10 := by decide

theorem witness_RequestFrameIsSent : Instr.setPositionRequest 1 2 = .setPositionRequest 1 2 ∧ State.reset.txq = [] := by
  decide

theorem witness_RequestFrameRejectedOnReceive :
    Instr.getPositionRequest = .getPositionRequest ∧ phase .le State.reset.rxbuf = .hunt := by decide

theorem witness_HeadOfLineWait :
    State.reset.rxbuf = [] ∧ (List.replicate 16 0#8).length ≤ 8191 ∧
    (ackFrame ++ List.replicate 6 0#8).length ≤ (List.replicate 16 0#8).length := by decide

theorem witness_ReceiveLeavesTransmitSide : isReceive (.rxPush 0) = true ∧ isReceive .outPop = true := by decide

theorem witness_TransmitLeavesReceiveSide : isSubmission (.txSubmitReq ⟨5, 0, 0, 0, 0⟩) = true := by decide

theorem witness_PureChangesOnlyAnswer : isPure (.statRead 7) = true ∧ isPure (.checksum []) = true := by decide

theorem witness_ReceiveAndTxStepCommute : isReceive (.rxPushSeq ackFrame) = true := by decide

theorem witness_ReceiveBlindToTransmit :
    isReceive .decodePass = true ∧ SameRxSide (blockWith ackFrame [] []) (blockWith ackFrame [] tenCommands) := by
  refine ⟨rfl, ?_⟩
  constructor <;> rfl

theorem witness_StepKeepsInvariant :
    Inv State.reset ∧ step State.reset = .next State.reset := by
  refine ⟨⟨by decide, .inl rfl, by decide, by decide, by decide, ?_, rfl, ?_⟩, rfl⟩
  · intro c hc
    exact absurd hc List.not_mem_nil
  · intro i hi
    simp [State.reset] at hi

theorem witness_StepRunsOfferedItem :
    State.reset.held = none ∧ decode (encode .reset) = .ok .reset [] ∧
    ({ blockWith [] [] tenCommands with held := some .getPositionRequest } : State).held = some .getPositionRequest ∧
    10 ≤ tenCommands.length ∧ isSubmission .getPositionRequest = true ∧ isSubmission .reset = false ∧
    (List.replicate 9 getPos).length < 10 ∧ [0x06#8] ≠ [] ∧ decode [0x06] = .bad .unknownOpcode ∧
    decode badFrame = .bad .badChecksum ∧ 10 ≤ badFrame.length ∧ (badFrame[0]? = some 0x55 ∧ badFrame[1]? = some 0xAA) ∧
    frameLenAt .le badFrame = badFrame.length ∧ badFrame = badFrame ++ [] := by decide

/-- No frame stands at the head of the byte 06. -/
theorem witness_StepRunsOfferedItem_no_frame (f rest : List Byte) (hl : 10 ≤ f.length) : [0x06#8] ≠ f ++ rest := by
  intro h
  have := congrArg List.length h
  simp at this
  omega

theorem witness_QuiescentBlockStays : quiescent State.reset := ⟨rfl, rfl, rfl⟩

theorem witness_EveryTransactionAnswers :
    step { State.reset with schedule := [0x06] } = .refused (.notAnItem .unknownOpcode) := rfl

theorem witness_DecodeOfEncode :
    (Instr.rxPushSeq [0x55]).wellFormed = true ∧ (Instr.encode ⟨[0x31], none, []⟩).wellFormed = true := by decide

theorem witness_EncodeOfDecode : decode (ackFrame ++ [9]) = .ok (.setPositionAck Reserved.zero) [9] := by decide

end Sys2Proof.Tests
end

section
/-! PROOFS. The state between transactions (spec/10_state.md): each instruction as one of five shapes, what a step keeps
of the invariant, the frames of the two halves of the block, and the counters at their last value. -/

namespace Sys2Proof.Machine

/-! ### Five shapes of an instruction: receive, submission, pure, TX_STEP, RESET -/

theorem instr_shapes (i : Instr) :
    isReceive i = true ∨ isSubmission i = true ∨ isPure i = true ∨ i = .txStep ∨ i = .reset := by
  cases i <;> simp [isReceive, isSubmission, isPure]

/-- A receive instruction is bytes pushed one by one (R170, R81; log entry 3), DECODE_PASS or OUT_POP. -/
theorem exec_receive_cases {i : Instr} (h : isReceive i = true) :
    (∃ f, ∀ s, exec i s = .next ((pushBytes s f).setResp .nothing)) ∨ i = .decodePass ∨ i = .outPop := by
  cases i with
  | setPositionAck rsv => exact .inl ⟨_, fun _ => rfl⟩
  | positionReached rsv x y => exact .inl ⟨_, fun _ => rfl⟩
  | getPositionResponse rsv x y flag => exact .inl ⟨_, fun _ => rfl⟩
  | errorResponse cmd rsv cause => exact .inl ⟨_, fun _ => rfl⟩
  | rxPush b => exact .inl ⟨[b], fun _ => rfl⟩
  | rxPushSeq bs => exact .inl ⟨bs, fun _ => rfl⟩
  | decodePass => exact .inr (.inl rfl)
  | outPop => exact .inr (.inr rfl)
  | _ => simp [isReceive] at h

/-- A submission submits one answer of its own, whatever the state; a presentable one queues only a Command that the port
can present (R78). -/
theorem exec_submission {i : Instr} (h : isSubmission i = true) :
    ∃ r : Except MapError Command, (∀ s, exec i s = .next (submit s i r)) ∧
      (i.wellFormed = true → ∀ c, r = .ok c → c.payloadFits = true ∧ c.cmdFits = true) := by
  cases i with
  | setPositionRequest x y =>
    exact ⟨_, fun _ => rfl, fun _ _ hc => recordCommand_presentable (r := eventRecord (.setPositionRequest x y)) hc⟩
  | getPositionRequest =>
    exact ⟨_, fun _ => rfl, fun _ _ hc => recordCommand_presentable (r := eventRecord .getPositionRequest) hc⟩
  | txSubmitCmd r =>
    refine ⟨_, fun _ => rfl, fun hw c hc => ?_⟩
    obtain rfl := Except.ok.inj hc
    exact (Bool.and_eq_true _ _).mp hw
  | txSubmitReq r => exact ⟨_, fun _ => rfl, fun _ _ hc => recordCommand_presentable hc⟩
  | _ => simp [isSubmission] at h

/-- A pure instruction gives something back and does nothing else (R90, R130, R140, R151, R175). -/
theorem exec_pure {i : Instr} (h : isPure i = true) (s : State) : ∃ r, exec i s = .next (s.setResp r) := by
  cases i with
  | checksum bs => exact ⟨_, rfl⟩
  | encode c =>
    simp only [exec, execEncode]
    cases encodeFrame Config.lenOrder c with
    | ok f => exact ⟨_, rfl⟩
    | error e => exact ⟨_, rfl⟩
  | toEvent c => exact ⟨_, execToEvent_eq c s⟩
  | toCommand r =>
    simp only [exec, execToCommand]
    cases recordCommand r with
    | ok c => exact ⟨_, rfl⟩
    | error e => exact ⟨_, rfl⟩
  | statRead n => exact ⟨_, rfl⟩
  | _ => simp [isPure] at h

theorem exec_decodePass (s : State) :
    exec .decodePass s = .next ((receivePass s).setResp (.commands (decodeFrames .le s.rxbuf).commands)) := rfl

/-- OUT_POP takes the head of OUTQ off, if there is one, and answers with its record (R171). -/
theorem exec_outPop (s : State) :
    exec .outPop s =
      .next ((s.setOutq s.outq.tail).setResp (.event ((s.outq.head?.map eventRecord).getD emptyRecord))) := by
  obtain ⟨⟨rx, oq, tq, tx, cnt⟩, r, h, v⟩ := s
  cases oq with
  | nil => rfl
  | cons e rest => rfl

end Sys2Proof.Machine

namespace Sys2Proof

/-! ### What decodes is presentable (R78) -/

/-- What was read can be presented at the ports; bytes refused by name can say nothing. -/
def Decoded.Presentable : Decoded → Prop
  | .ok i _ => i.wellFormed = true
  | .bad _ => True

theorem Decoded.Presentable.ite {p : Prop} [Decidable p] {a b : Decoded} (ha : p → a.Presentable)
    (hb : ¬p → b.Presentable) : (if p then a else b).Presentable :=
  iteInduction (motive := Decoded.Presentable) ha hb

theorem Decoded.Presentable.andThen {α : Type} {p : Parsed α} {f : α → List Byte → Decoded}
    (h : ∀ a t, p = .got a t → (f a t).Presentable) : (p.andThen f).Presentable := by
  cases p with
  | got a t => exact h a t rfl
  | err e => trivial

theorem classifyFrame_presentable (cmd : Byte) (rsv : Reserved) (st : BitVec 3) (p rest : List Byte) :
    (classifyFrame cmd rsv st p rest).Presentable := by
  unfold classifyFrame
  split_ifs <;> trivial

theorem decodeFrame_presentable (bs : List Byte) : (decodeFrame bs).Presentable := by
  unfold decodeFrame
  split
  · exact .ite (fun _ => .andThen fun _ _ _ => .ite (fun _ => classifyFrame_presentable _ _ _ _ _) fun _ => trivial)
      fun _ => trivial
  · trivial

theorem decodeRxPush_presentable (bs : List Byte) : (decodeRxPush bs).Presentable := by
  cases bs <;> trivial

theorem decodeStatRead_presentable (bs : List Byte) : (decodeStatRead bs).Presentable := by
  cases bs with
  | nil => trivial
  | cons b rest => exact .ite (fun _ => rfl) fun _ => trivial

theorem decodeSubmitCmd_presentable (bs : List Byte) : (decodeSubmitCmd bs).Presentable :=
  .andThen fun _ _ hr => .ite (fun hc => (Bool.and_eq_true _ _).mpr ⟨(parseCommandRecord_got hr).2, hc⟩) fun _ => trivial

theorem decodePushSeq_presentable (bs : List Byte) : (decodePushSeq bs).Presentable :=
  .andThen fun l _ _ => .ite (fun _ => trivial) fun hl => by simpa [Decoded.Presentable, Instr.wellFormed] using hl

/-- One line for each arm of the decoder, in its order. -/
theorem decode_presentable (bs : List Byte) : (decode bs).Presentable := by
  cases bs with
  | nil => trivial
  | cons op t =>
    refine .ite (fun _ => decodeFrame_presentable t) fun _ => ?_
    refine .ite (fun _ => .andThen fun _ _ _ => rfl) fun _ => ?_
    refine .ite (fun _ => rfl) fun _ => ?_
    refine .ite (fun _ => .andThen fun _ _ hc => (parseCommand_got hc).2) fun _ => ?_
    refine .ite (fun _ => .andThen fun _ _ hc => (parseCommand_got hc).2) fun _ => ?_
    refine .ite (fun _ => .andThen fun _ _ _ => rfl) fun _ => ?_
    refine .ite (fun _ => decodeRxPush_presentable t) fun _ => ?_
    refine .ite (fun _ => rfl) fun _ => ?_
    refine .ite (fun _ => decodeSubmitCmd_presentable t) fun _ => ?_
    refine .ite (fun _ => .andThen fun _ _ _ => rfl) fun _ => ?_
    refine .ite (fun _ => rfl) fun _ => ?_
    refine .ite (fun _ => decodeStatRead_presentable t) fun _ => ?_
    refine .ite (fun _ => rfl) fun _ => ?_
    exact .ite (fun _ => decodePushSeq_presentable t) fun _ => trivial

theorem decode_wellFormed {bs rest : List Byte} {i : Instr} (h : decode bs = .ok i rest) : i.wellFormed = true := by
  have hp := decode_presentable bs
  rwa [h] at hp

end Sys2Proof

namespace Sys2Proof.Machine

/-! ### Delivery, case by case (R108) -/

theorem deliver_queued {s : State} {c : Command} {e : Event} (h : toEvent c = .ok e) (hl : s.outq.length < 10) :
    deliver s c = { s with outq := s.outq ++ [e] } := by
  simp only [deliver, h, deliverEvent, Config.outqDepth, if_pos hl]
  rfl

theorem deliver_dropped {s : State} {c : Command} {e : Event} (h : toEvent c = .ok e) (hl : 10 ≤ s.outq.length) :
    deliver s c = { s with cnt := { s.cnt with outDrops := s.cnt.outDrops + 1#32 } } := by
  simp only [deliver, h, deliverEvent, Config.outqDepth, if_neg (Nat.not_lt.mpr hl)]
  rfl

theorem deliver_cmdTypeError {s : State} {c : Command} (h : toEvent c = .error .invalidCommandType) :
    deliver s c = { s with cnt := { s.cnt with mapErrCmdType := s.cnt.mapErrCmdType + 1#32 } } := by
  simp only [deliver, h, countMapError]
  rfl

theorem deliver_payloadError {s : State} {c : Command} (h : toEvent c = .error .invalidPayload) :
    deliver s c = { s with cnt := { s.cnt with mapErrPayload := s.cnt.mapErrPayload + 1#32 } } := by
  simp only [deliver, h, countMapError]
  rfl

/-! ### The invariant: OUTQ and RXBUF -/

/-- The two clauses of the invariant about OUTQ (R25, R31). -/
def OutqSound (s : State) : Prop := s.outq.length ≤ 10 ∧ ∀ e ∈ s.outq, deviceOriginated e = true

theorem OutqSound.deliver {s : State} (h : OutqSound s) (c : Command) : OutqSound (deliver s c) := by
  obtain ⟨hfits, hdevice⟩ := h
  rcases deliver_cases s c with ⟨e, he, hl, hd⟩ | ⟨e, -, -, hd⟩ | ⟨-, hd⟩ | ⟨-, hd⟩ <;> rw [hd]
  · refine ⟨by simpa using hl, fun d hm => ?_⟩
    rcases List.mem_append.mp hm with hm | hm
    · exact hdevice d hm
    · rw [List.mem_singleton.mp hm]
      exact toEvent_device he
  all_goals exact ⟨hfits, hdevice⟩

theorem OutqSound.deliverAll {s : State} (h : OutqSound s) (cs : List Command) :
    OutqSound (cs.foldl Machine.deliver s) := by
  induction cs generalizing s with
  | nil => exact h
  | cons c cs ih => exact ih (h.deliver c)

theorem OutqSound.receivePass {s : State} (h : OutqSound s) : OutqSound (receivePass s) := by
  rw [receivePass_eq]
  exact OutqSound.deliverAll (by exact h) _

/-- A pass leaves no complete frame behind (R107). -/
theorem decodeFrames_rest_settled (o : LenOrder) (buf : List Byte) : settled o (decodeFrames o buf).rest := by
  induction buf using pass_induction o with
  | hnone b h =>
    rw [decodeFrames_none o h]
    exact settled_of_hunt h
  | hdrop b i h _ ih => rwa [decodeFrames_drop o h]
  | hwait b h hw =>
    rw [decodeFrames_wait o h hw]
    exact (settled_iff o b).mpr (.inr ⟨h, hw⟩)
  | hframe b h hl ih => rwa [decodeFrames_frame o h hl, PassResult.after_rest]

/-- The trim leaves room for the byte that comes (R112). -/
theorem overflowTrim_length {buf : List Byte} (h : buf.length ≤ 8201) : (overflowTrim 8201 buf).length < 8201 := by
  unfold overflowTrim
  split_ifs with hfull hlast
  · simp
  · simp
  · omega

end Sys2Proof.Machine

namespace Sys2Proof

open Sys2Proof.Machine

/-! ### The invariant through each field -/

theorem Inv.outqSound {s : State} (h : Inv s) : OutqSound s := ⟨h.outqFits, h.outqDevice⟩

/-- The receive engine need show the clauses about RXBUF and OUTQ only: its frame gives the others. -/
theorem Inv.of_receive {s t : State} (h : Inv s) (hf : ReceiveFrame s t) (hfits : t.rxbuf.length ≤ 8201)
    (hset : settled .le t.rxbuf) (hq : OutqSound t) : Inv t where
  rxFits := hfits
  rxSettled := hset
  outqFits := hq.1
  outqDevice := hq.2
  txqFits := hf.txSide.txq ▸ h.txqFits
  txqPresentable := hf.txSide.txq ▸ h.txqPresentable
  counterSeven := hf.rest.counterSeven.trans h.counterSeven
  heldSubmission := hf.held ▸ h.heldSubmission

theorem Inv.setResp {s : State} (h : Inv s) (r : Response) : Inv (s.setResp r) := { h with }

theorem Inv.setSchedule {s : State} (h : Inv s) (v : List Byte) : Inv (s.setSchedule v) := { h with }

theorem Inv.setHeld {s : State} (h : Inv s) {v : Option Instr}
    (hv : ∀ i, v = some i → i.wellFormed = true ∧ isSubmission i = true) : Inv (s.setHeld v) :=
  { h with heldSubmission := hv }

/-- TX_STEP and the submissions need show two clauses about TXQ. -/
theorem Inv.setTxq {s : State} (h : Inv s) {q : List Command} (hl : q.length ≤ 10)
    (hq : ∀ c ∈ q, c.payloadFits = true ∧ c.cmdFits = true) : Inv (s.setTxq q) :=
  { h with txqFits := hl, txqPresentable := hq }

theorem Inv.setCnt {s : State} (h : Inv s) {c : Counters} (hc : c.reserved = 0#32) : Inv (s.setCnt c) :=
  { h with counterSeven := hc }

theorem Inv.setTxout {s : State} (h : Inv s) (v : List Byte) : Inv (s.setTxout v) := { h with }

end Sys2Proof

namespace Sys2Proof.Machine

/-! ### The invariant through each operation -/

theorem pushByte_inv {s : State} (h : Inv s) (b : Byte) : Inv (pushByte s b) := by
  have hlen := overflowTrim_length h.rxFits
  refine h.of_receive (pushByte_frame s b) ?_ ?_ (OutqSound.receivePass (by exact h.outqSound)) <;>
    rw [pushByte_eq, receivePass_rxbuf]
  · refine (decodeFrames_rest_length _ _).trans ?_
    simpa using hlen
  · exact decodeFrames_rest_settled _ _

theorem pushBytes_inv {s : State} (h : Inv s) (bs : List Byte) : Inv (pushBytes s bs) := by
  induction bs generalizing s with
  | nil => exact h
  | cons b bs ih => exact ih (pushByte_inv h b)

theorem popOutq_inv {s : State} (h : Inv s) : Inv (s.setOutq s.outq.tail) :=
  { h with
    outqFits := (List.length_tail ▸ Nat.sub_le _ _).trans h.outqFits
    outqDevice := fun e he => h.outqDevice e (List.mem_of_mem_tail he) }

theorem clear_inv {s : State} (h : Inv s) : Inv (clear s) :=
  ⟨Nat.zero_le _, settled_of_hunt rfl, Nat.zero_le _, fun _ he => absurd he List.not_mem_nil, Nat.zero_le _,
    fun _ hc => absurd hc List.not_mem_nil, rfl, h.heldSubmission⟩

theorem txEngine_inv {s : State} (h : Inv s) : Inv (txEngine s) := by
  have tail : ∀ c rest, s.txq = c :: rest → Inv (s.setTxq rest) := by
    intro c rest hs
    have hl : s.txq.length ≤ 10 := h.txqFits
    rw [hs, List.length_cons] at hl
    exact h.setTxq (by omega) fun d hd => h.txqPresentable d (hs ▸ List.mem_cons_of_mem c hd)
  rcases txEngine_cases s with ⟨-, ht⟩ | ⟨c, rest, b, hs, -, ht⟩ | ⟨c, rest, hs, -, ht⟩ <;> rw [ht]
  · exact h
  · exact ((tail c rest hs).setTxout _).setCnt h.counterSeven
  · exact (tail c rest hs).setCnt h.counterSeven

theorem submit_inv {s : State} (h : Inv s) {i : Instr} {r : Except MapError Command} (hw : i.wellFormed = true)
    (hi : isSubmission i = true) (hr : ∀ c, r = .ok c → c.payloadFits = true ∧ c.cmdFits = true) :
    Inv (submit s i r) := by
  rcases submit_cases s i r with ⟨-, ht⟩ | ⟨c, hl, hc, ht⟩ | ⟨e, -, -, ht⟩ <;> rw [ht]
  · refine (h.setHeld (v := some i) fun j hj => ?_).setResp .held
    rw [← Option.some.inj hj]
    exact ⟨hw, hi⟩
  · refine (h.setTxq (q := s.txq ++ [c]) (by simpa using hl) fun d hd => ?_).setResp .accepted
    rcases List.mem_append.mp hd with hd | hd
    · exact h.txqPresentable d hd
    · rw [List.mem_singleton.mp hd]
      exact hr c hc
  · exact h.setResp (.error e)

/-- Every presentable instruction keeps the invariant. -/
theorem exec_inv {s t : State} (h : Inv s) {i : Instr} (hw : i.wellFormed = true) (he : exec i s = .next t) : Inv t := by
  rcases instr_shapes i with hi | hi | hi | rfl | rfl
  · rcases exec_receive_cases hi with ⟨f, hf⟩ | rfl | rfl
    · obtain rfl := Host.Outcome.next.inj ((hf s).symm.trans he)
      exact (pushBytes_inv h f).setResp .nothing
    · obtain rfl := Host.Outcome.next.inj ((exec_decodePass s).symm.trans he)
      rw [receivePass_settled s h.rxSettled]
      exact h.setResp _
    · obtain rfl := Host.Outcome.next.inj ((exec_outPop s).symm.trans he)
      exact (popOutq_inv h).setResp _
  · obtain ⟨r, hs, hr⟩ := exec_submission hi
    obtain rfl := Host.Outcome.next.inj ((hs s).symm.trans he)
    exact submit_inv h hw hi (hr hw)
  · obtain ⟨r, hp⟩ := exec_pure hi s
    obtain rfl := Host.Outcome.next.inj (hp.symm.trans he)
    exact h.setResp r
  · obtain rfl := Host.Outcome.next.inj he
    exact txEngine_inv h
  · obtain rfl := Host.Outcome.next.inj he
    exact (clear_inv h).setResp .nothing

/-- Settles O54: what a step runs is presentable, and every presentable instruction keeps the invariant. -/
theorem stepKeepsInvariant : Obligations.StepKeepsInvariant := by
  intro s t h hstep
  unfold step at hstep
  rcases choose_cases s with ⟨i, hi, hc⟩ | hc | ⟨i, rest, hd, hc⟩ | ⟨e, f, rest, -, hf, hc⟩ | ⟨e, -, -, -, hc⟩ <;>
    rw [hc] at hstep
  · exact exec_inv (h.setHeld (v := none) fun j hj => nomatch hj) (h.heldSubmission i hi).1 hstep
  · exact exec_inv h (i := .txStep) rfl hstep
  · exact exec_inv (h.setSchedule rest) (decode_wellFormed hd) hstep
  · obtain ⟨-, -, hl, -⟩ := splitFrame_some hf
    have hw : (Instr.rxPushSeq f).wellFormed = true := by
      cases f with
      | nil => simp at hl
      | cons b bs => rfl
    exact exec_inv (h.setSchedule rest) hw hstep
  · simp at hstep

/-- Settles O53: the buffers are empty, the counters 0 and nothing is held. -/
theorem resetMeetsInvariant : Obligations.ResetMeetsInvariant where
  rxFits := Nat.zero_le _
  rxSettled := settled_of_hunt rfl
  outqFits := Nat.zero_le _
  outqDevice _ he := absurd he List.not_mem_nil
  txqFits := Nat.zero_le _
  txqPresentable _ hc := absurd hc List.not_mem_nil
  counterSeven := rfl
  heldSubmission _ hi := nomatch hi

end Sys2Proof.Machine
end

section
/-! PROOFS. The two halves of the block (spec/10_state.md R20, spec/20_memory.md R52): each leaves the other alone, and
the receive side does not see the transmit side. -/

namespace Sys2Proof.Machine

/-! ### The frames of the two halves -/

/-- Settles O48: the three shapes of a receive instruction, with the frame of the receive engine. -/
theorem receiveLeavesTransmitSide : Obligations.ReceiveLeavesTransmitSide := by
  intro i s hi
  rcases exec_receive_cases hi with ⟨f, hf⟩ | rfl | rfl
  · have h := pushBytes_frame f s
    exact ⟨_, hf s, { h.txSide with }, { h.rest with }, h.held⟩
  · have h := receivePass_frame s
    exact ⟨_, exec_decodePass s, { h.txSide with }, { h.rest with }, h.held⟩
  · exact ⟨_, exec_outPop s, ⟨rfl, rfl, rfl, rfl⟩, ⟨rfl, rfl⟩, rfl⟩

/-- Settles O49: the cases of TX_STEP and of a submission. -/
theorem transmitLeavesReceiveSide : Obligations.TransmitLeavesReceiveSide := by
  intro s
  constructor
  · refine ⟨_, rfl, ?_⟩
    rcases txEngine_cases s with ⟨-, h⟩ | ⟨c, rest, b, -, -, h⟩ | ⟨c, rest, -, -, h⟩ <;> rw [h] <;>
      exact ⟨⟨rfl, rfl, rfl, rfl, rfl, rfl, rfl⟩, ⟨rfl, rfl⟩, rfl, rfl⟩
  · intro i hi
    obtain ⟨r, hs, -⟩ := exec_submission hi
    refine ⟨_, hs s, ?_⟩
    rcases submit_cases s i r with ⟨-, h⟩ | ⟨c, -, -, h⟩ | ⟨e, -, -, h⟩ <;> rw [h] <;>
      exact ⟨⟨rfl, rfl, rfl, rfl, rfl, rfl, rfl⟩, ⟨rfl, rfl⟩, rfl, rfl⟩

/-! ### The receive side as a function of itself -/

theorem deliver_sameRxSide {s t : State} (h : SameRxSide s t) (c : Command) : SameRxSide (deliver s c) (deliver t c) := by
  cases hc : toEvent c with
  | ok e =>
    rcases Nat.lt_or_ge s.outq.length 10 with hl | hl
    · rw [deliver_queued hc hl, deliver_queued hc (h.outq ▸ hl)]
      exact { h with outq := congrArg (· ++ [e]) h.outq }
    · rw [deliver_dropped hc hl, deliver_dropped hc (h.outq ▸ hl)]
      exact { h with outDrops := congrArg (· + 1#32) h.outDrops }
  | error e =>
    cases e with
    | invalidCommandType =>
      rw [deliver_cmdTypeError hc, deliver_cmdTypeError hc]
      exact { h with mapErrCmdType := congrArg (· + 1#32) h.mapErrCmdType }
    | invalidPayload =>
      rw [deliver_payloadError hc, deliver_payloadError hc]
      exact { h with mapErrPayload := congrArg (· + 1#32) h.mapErrPayload }

theorem deliverAll_sameRxSide (cs : List Command) {s t : State} (h : SameRxSide s t) :
    SameRxSide (cs.foldl deliver s) (cs.foldl deliver t) := by
  induction cs generalizing s t with
  | nil => exact h
  | cons c cs ih => exact ih (deliver_sameRxSide h c)

theorem receivePass_sameRxSide {s t : State} (h : SameRxSide s t) : SameRxSide (receivePass s) (receivePass t) := by
  rw [receivePass_eq, receivePass_eq, h.rxbuf]
  exact deliverAll_sameRxSide _
    { h with
      rxbuf := rfl
      framesOk := congrArg (· + _) h.framesOk
      framesBad := congrArg (· + _) h.framesBad }

theorem pushByte_sameRxSide {s t : State} (h : SameRxSide s t) (b : Byte) :
    SameRxSide (pushByte s b) (pushByte t b) := by
  rw [pushByte_eq, pushByte_eq, h.rxbuf]
  exact receivePass_sameRxSide { h with rxbuf := rfl }

theorem pushBytes_sameRxSide (bs : List Byte) {s t : State} (h : SameRxSide s t) :
    SameRxSide (pushBytes s bs) (pushBytes t bs) := by
  induction bs generalizing s t with
  | nil => exact h
  | cons b bs ih => exact ih (pushByte_sameRxSide h b)

/-- Settles O52: each operation of the receive engine answers the same from the same receive side. -/
theorem receiveBlindToTransmit : Obligations.ReceiveBlindToTransmit := by
  intro i s t hi h
  rcases exec_receive_cases hi with ⟨f, hf⟩ | rfl | rfl
  · exact ⟨_, _, hf s, hf t, { pushBytes_sameRxSide f h with }, rfl⟩
  · refine ⟨_, _, exec_decodePass s, exec_decodePass t, { receivePass_sameRxSide h with }, ?_⟩
    simp only [State.setResp_resp, h.rxbuf]
  · refine ⟨_, _, exec_outPop s, exec_outPop t, { h with outq := congrArg List.tail h.outq }, ?_⟩
    simp only [State.setResp_resp, h.outq]

end Sys2Proof.Machine
end

section
/-! PROOFS. The counters at FFFFFFFF (spec/10_state.md R29), on one Command leaving TXQ and on one whole frame that arrives
at an empty RXBUF. -/

namespace Sys2Proof.Machine

/-! ### One Command leaves TXQ (R174) -/

theorem txEngine_sent {s : State} {c : Command} {rest : List Command} {b : Byte} (hs : s.txq = c :: rest)
    (hb : c.cmdType = [b]) :
    txEngine s = { s with
      txq := rest, txout := s.txout ++ wireFrame .le b Reserved.zero 0#3 c.payload,
      cnt := { s.cnt with txFrames := s.cnt.txFrames + 1#32 } } := by
  simp only [txEngine, hs, transmit, encodeFrame, hb]
  rfl

theorem txEngine_rejected {s : State} {c : Command} {rest : List Command} (hs : s.txq = c :: rest)
    (hc : c.cmdType.length ≠ 1) :
    txEngine s = { s with txq := rest, cnt := { s.cnt with txEncErr := s.cnt.txEncErr + 1#32 } } := by
  rcases encodeFrame_cases .le c with ⟨b, hb, -⟩ | ⟨-, he⟩
  · simp [hb] at hc
  · simp only [txEngine, hs, transmit, Config.lenOrder, he]
    rfl

/-! ### One whole frame arrives at an empty RXBUF -/

/-- Before its last byte a frame is not complete (R104). -/
theorem settled_take_frame {f b : List Byte} (hf : f = 0x55#8 :: 0xAA#8 :: b) (hlen : frameLenAt .le f = f.length)
    {k : Nat} (hk : k < f.length) : settled .le (f.take k) := by
  rw [settled_iff]
  rcases k with _ | _ | k
  · exact .inl rfl
  · exact .inl (by rw [hf]; rfl)
  · refine .inr ⟨by rw [hf]; exact findSync_sync _, ?_⟩
    have htake : (f.take (k + 1 + 1)).length = k + 2 := by
      rw [List.length_take]
      omega
    rcases Nat.lt_or_ge (k + 2) 10 with hl | hl
    · exact .inl (by omega)
    · have happ := frameLenAt_append .le (b := f.take (k + 1 + 1)) (by omega) (f.drop (k + 1 + 1))
      rw [List.take_append_drop] at happ
      exact .inr (by omega)

/-- A byte that completes no frame is appended and nothing else happens. -/
theorem pushByte_waits {s : State} {b : Byte} (hl : s.rxbuf.length < 8201) (h : settled .le (s.rxbuf ++ [b])) :
    pushByte s b = { s with rxbuf := s.rxbuf ++ [b] } := by
  rw [pushByte_eq, overflowTrim, if_neg (by omega)]
  exact receivePass_settled _ h

/-- The bytes of a frame before its last one only fill RXBUF. -/
theorem pushBytes_take_frame {f b : List Byte} (hf : f = 0x55#8 :: 0xAA#8 :: b) (hlen : frameLenAt .le f = f.length)
    {s : State} (hs : s.rxbuf = []) {k : Nat} (hk : k < f.length) :
    pushBytes s (f.take k) = { s with rxbuf := f.take k } := by
  induction k with
  | zero => rw [List.take_zero, pushBytes_nil, ← hs]
  | succ k ih =>
    have hmax := frameLenAt_le .le f
    have hset := settled_take_frame hf hlen hk
    have hfill : (f.take k).length < 8201 := by
      rw [List.length_take]
      omega
    rw [List.take_succ_eq_append_getElem (by omega)] at hset ⊢
    rw [pushBytes_append, ih (by omega)]
    exact pushByte_waits (s := { s with rxbuf := f.take k }) hfill hset

/-- A whole frame pushed byte by byte into an empty RXBUF is one pass over it (R111). -/
theorem pushBytes_frame_eq_pass {f b : List Byte} (hf : f = 0x55#8 :: 0xAA#8 :: b)
    (hlen : frameLenAt .le f = f.length) {s : State} (hs : s.rxbuf = []) :
    pushBytes s f = receivePass { s with rxbuf := f } := by
  have hmax := frameLenAt_le .le f
  obtain ⟨init, last, rfl⟩ : ∃ init last, f = init ++ [last] :=
    ⟨_, _, (List.dropLast_append_getLast (l := f) (by simp [hf])).symm⟩
  have hinit := pushBytes_take_frame hf hlen hs (k := init.length) (by simp)
  rw [List.take_left] at hinit
  have hfill : init.length < 8201 := by
    rw [hlen, List.length_append, List.length_singleton] at hmax
    omega
  rw [pushBytes_append, hinit, pushBytes_cons, pushBytes_nil, pushByte_eq, overflowTrim, if_neg (by exact hfill.ne)]

/-- The pass over a frame that fills the buffer (R105, R106). -/
theorem decodeFrames_whole_frame {f b : List Byte} (hf : f = 0x55#8 :: 0xAA#8 :: b)
    (hlen : frameLenAt .le f = f.length) :
    decodeFrames .le f = PassResult.after ⟨[], 0, []⟩ (frameValid f f.length) (commandAt .le f) := by
  have hsync : findSync f = some 0 := by rw [hf]; exact findSync_sync b
  rw [decodeFrames_frame .le hsync hlen.le, hlen, List.drop_length, decodeFrames_none .le rfl]

theorem pushBytes_corrupt_frame {f b : List Byte} (hf : f = 0x55#8 :: 0xAA#8 :: b)
    (hlen : frameLenAt .le f = f.length) (hbad : frameValid f f.length = false) {s : State} (hs : s.rxbuf = []) :
    pushBytes s f = { s with cnt := { s.cnt with framesBad := s.cnt.framesBad + 1#32 } } := by
  rw [pushBytes_frame_eq_pass hf hlen hs, receivePass_eq, decodeFrames_whole_frame hf hlen, hbad, PassResult.after_false]
  simp [← hs]

theorem pushBytes_wireFrame {s : State} (hs : s.rxbuf = []) (cmd : Byte) (rsv : Reserved) (st : BitVec 3)
    {p : List Byte} (hp : p.length ≤ 8191) :
    pushBytes s (wireFrame .le cmd rsv st p) = deliver { s with cnt := s.cnt.oneFrame } ⟨[cmd], some st, p⟩ := by
  obtain ⟨-, hlen, hvalid, hcmd⟩ := wireFrame_facts .le cmd rsv st p [] hp
  obtain ⟨b7, b8, -, hshape⟩ := wireFrame_shape .le cmd rsv st p
  rw [List.append_nil] at hlen hvalid hcmd
  rw [← wireFrame_length .le cmd rsv st p] at hlen hvalid
  rw [pushBytes_frame_eq_pass hshape hlen hs, receivePass_eq, decodeFrames_whole_frame hshape hlen, hvalid, hcmd,
    PassResult.after_true]
  simp [← hs, Counters.oneFrame]

/-! ### The wrap (R29) -/

theorem add_one_of_last {v : Word32} (h : v = 0xFFFFFFFF#32) : v + 1#32 = 0#32 := by
  rw [h]
  rfl

/-- Settles O41: each counter goes up by one, which is 0 after FFFFFFFF. -/
theorem countersWrap : Obligations.CountersWrap := by
  refine ⟨?_, ?_, ?_, ?_, ?_, ?_, ?_⟩
  · -- TX_FRAMES
    intro s b st p rest hs hc
    refine ⟨_, rfl, ?_⟩
    rw [txEngine_sent hs rfl, add_one_of_last hc]
  · -- TX_ENC_ERR
    intro s c rest hs hl hc
    refine ⟨_, rfl, ?_⟩
    rw [txEngine_rejected hs hl, add_one_of_last hc]
  · -- FRAMES_OK
    intro s rsv hs hq hc
    refine ⟨_, rfl, ?_⟩
    have hroom : s.outq.length < 10 := by simp [hq]
    rw [receiveFrame, setPositionAckFrame, pushBytes_wireFrame hs _ _ _ (Nat.zero_le _), deliver_queued rfl (by exact hroom)]
    simp [Counters.oneFrame, add_one_of_last hc]
  · -- FRAMES_BAD
    intro s f b hs hf _ hlen hbad hc
    refine ⟨_, rfl, ?_⟩
    rw [pushBytes_corrupt_frame hf hlen hbad hs, add_one_of_last hc]
    rfl
  · -- MAP_ERR_CMDTYPE
    intro s cmd rsv st p hs hp he hc
    refine ⟨_, rfl, ?_⟩
    rw [pushBytes_wireFrame hs _ _ _ hp, deliver_cmdTypeError he]
    simp [Counters.oneFrame, add_one_of_last hc]
  · -- MAP_ERR_PAYLOAD
    intro s cmd rsv st p hs hp he hc
    refine ⟨_, rfl, ?_⟩
    rw [pushBytes_wireFrame hs _ _ _ hp, deliver_payloadError he]
    simp [Counters.oneFrame, add_one_of_last hc]
  · -- OUT_DROPS
    intro s cmd rsv st p e hs hp he hfull hc
    refine ⟨_, rfl, ?_⟩
    rw [pushBytes_wireFrame hs _ _ _ hp, deliver_dropped he (by exact hfull)]
    simp [Counters.oneFrame, add_one_of_last hc]

end Sys2Proof.Machine
end

section
/-! PROOFS. The order of occurrences (spec/20_memory.md): the pure functions (R48), either order of a receive
transaction and TX_STEP (R52), TXQ drained in queue order (R51), and a stream of device messages received in its order (R50). -/

namespace Sys2Proof.Machine

/-! ### The pure functions (R48) -/

/-- Settles O50: a pure instruction sets the answer. -/
theorem pureChangesOnlyAnswer : Obligations.PureChangesOnlyAnswer := fun _ s h => exec_pure h s

/-! ### A receive transaction and TX_STEP in either order (R52) -/

/-- The two halves, the rest, the answer and a held submission are all of a state. -/
theorem State.eq_of_sides {s t : State} (hrx : SameRxSide s t) (htx : SameTxSide s t) (hrest : SameRest s t)
    (hresp : t.resp = s.resp) (hheld : t.held = s.held) : t = s := by
  obtain ⟨⟨rx, oq, tq, tx, ⟨k0, k1, k2, k3, k4, k5, k6, k7⟩⟩, r, h, v⟩ := s
  obtain ⟨⟨rx', oq', tq', tx', ⟨l0, l1, l2, l3, l4, l5, l6, l7⟩⟩, r', h', v'⟩ := t
  obtain ⟨rfl, rfl, rfl, rfl, rfl, rfl, rfl⟩ := hrx
  obtain ⟨rfl, rfl, rfl, rfl⟩ := htx
  obtain ⟨rfl, rfl⟩ := hrest
  obtain rfl := hresp
  obtain rfl := hheld
  rfl

/-- Two states with the receive side of a third have one receive side. -/
theorem sameRxSide_of_common {s t u : State} (a : SameRxSide s t) (b : SameRxSide s u) : SameRxSide t u :=
  ⟨b.rxbuf.trans a.rxbuf.symm, b.outq.trans a.outq.symm, b.framesOk.trans a.framesOk.symm,
    b.framesBad.trans a.framesBad.symm, b.mapErrCmdType.trans a.mapErrCmdType.symm,
    b.mapErrPayload.trans a.mapErrPayload.symm, b.outDrops.trans a.outDrops.symm⟩

/-- Two states with the transmit side of a third have one transmit side. -/
theorem sameTxSide_of_common {s t u : State} (a : SameTxSide s t) (b : SameTxSide s u) : SameTxSide t u :=
  ⟨b.txq.trans a.txq.symm, b.txout.trans a.txout.symm, b.txFrames.trans a.txFrames.symm,
    b.txEncErr.trans a.txEncErr.symm⟩

/-- What TX_STEP does to the transmit side depends on the transmit side alone. -/
theorem txEngine_sameTxSide {s t : State} (h : SameTxSide s t) : SameTxSide (txEngine s) (txEngine t) := by
  rcases txEngine_cases s with ⟨hq, hs⟩ | ⟨c, rest, b, hq, hb, hs⟩ | ⟨c, rest, hq, hc, hs⟩ <;> rw [hs]
  · have ht : txEngine t = t := by simp only [txEngine, h.txq, hq]
    rwa [ht]
  · rw [txEngine_sent (h.txq.trans hq) hb]
    exact { h with txq := rfl, txout := congrArg (· ++ _) h.txout, txFrames := congrArg (· + 1#32) h.txFrames }
  · rw [txEngine_rejected (h.txq.trans hq) hc]
    exact { h with txq := rfl, txEncErr := congrArg (· + 1#32) h.txEncErr }

/-- Settles O51: each of the two leaves the other's half alone (O48, O49) and reads its own half only (O52 and
`txEngine_sameTxSide`), so both orders end with the same halves. -/
theorem receiveAndTxStepCommute : Obligations.ReceiveAndTxStepCommute := by
  intro i s hi
  obtain ⟨⟨v, hv, hsv, hsvRest, hsvResp, hsvHeld⟩, -⟩ := transmitLeavesReceiveSide s
  obtain ⟨t, w, ht, hw, htw, htwResp⟩ := receiveBlindToTransmit i s v hi hsv
  obtain ⟨t', ht', hst, hstRest, hstHeld⟩ := receiveLeavesTransmitSide i s hi
  obtain rfl := Host.Outcome.next.inj (ht.symm.trans ht')
  obtain ⟨w', hw', hvw, hvwRest, hvwHeld⟩ := receiveLeavesTransmitSide i v hi
  obtain rfl := Host.Outcome.next.inj (hw.symm.trans hw')
  obtain ⟨⟨u, hu, htu, htuRest, htuResp, htuHeld⟩, -⟩ := transmitLeavesReceiveSide t
  have hvu : SameTxSide v u := by
    obtain rfl := Host.Outcome.next.inj hv
    obtain rfl := Host.Outcome.next.inj hu
    exact txEngine_sameTxSide hst
  have hrest : SameRest u w :=
    ⟨by rw [hvwRest.counterSeven, hsvRest.counterSeven, htuRest.counterSeven, hstRest.counterSeven],
      by rw [hvwRest.schedule, hsvRest.schedule, htuRest.schedule, hstRest.schedule]⟩
  have hheld : w.held = u.held := by rw [hvwHeld, hsvHeld, htuHeld, hstHeld]
  have hwu : w = u := State.eq_of_sides (sameRxSide_of_common htu htw) (sameTxSide_of_common hvu hvw) hrest
    (htwResp.symm.trans htuResp.symm) hheld
  exact ⟨t, u, v, ht, hu, hv, hwu ▸ hw⟩

/-! ### TXQ drains in queue order (R51) -/

/-- With nothing offered and nothing held a step is the TX engine's (R179; log entry 6). -/
theorem step_idle {s : State} (hh : s.held = none) (hs : s.schedule = []) : step s = .next (txEngine s) := by
  simp only [step, choose, hh, chooseOffered, hs]
  rfl

/-- The state once the TX engine is through with the Commands q. -/
def drained (s : State) (q : List Command) : State :=
  { s with
    txq := [], txout := s.txout ++ q.flatMap sentBytes,
    cnt := { s.cnt with
      txFrames := s.cnt.txFrames + BitVec.ofNat 32 (q.filter (fun c => c.cmdType.length == 1)).length,
      txEncErr := s.cnt.txEncErr + BitVec.ofNat 32 (q.filter (fun c => c.cmdType.length != 1)).length } }

theorem drained_nil {s : State} (hq : s.txq = []) : drained s [] = s := by
  simp only [drained, List.flatMap_nil, List.filter_nil, List.length_nil, List.append_nil, BitVec.add_zero]
  rw [← hq]

/-- The engine's one step on the head is the first part of draining the queue. -/
theorem drained_txEngine {s : State} {c : Command} {rest : List Command} (hq : s.txq = c :: rest) :
    drained (txEngine s) rest = drained s (c :: rest) := by
  rcases encodeFrame_cases .le c with ⟨b, hb, -⟩ | ⟨hc, -⟩
  · rw [txEngine_sent hq hb]
    simp [drained, sentBytes, hb, BitVec.ofNat_add, add_assoc, add_comm 1#32]
  · have hsent : sentBytes c = [] := by
      unfold sentBytes
      split
      · rename_i b hb
        simp [hb] at hc
      · rfl
    rw [txEngine_rejected hq hc]
    simp [drained, hsent, hc, BitVec.ofNat_add, add_assoc, add_comm 1#32]

theorem txEngine_txq (s : State) : (txEngine s).txq = s.txq.tail := by
  rcases txEngine_cases s with ⟨hq, h⟩ | ⟨c, rest, b, hq, -, h⟩ | ⟨c, rest, hq, -, h⟩
  · rw [h, hq, List.tail_nil]
  · rw [h, hq, List.tail_cons]
  · rw [h, hq, List.tail_cons]

/-- One step for each Command of the queue. -/
theorem run_drains (q : List Command) {s : State} (hq : s.txq = q) (hh : s.held = none) (hs : s.schedule = []) :
    Sys2Proof.core.run q.length s = .next (drained s q) := by
  induction q generalizing s with
  | nil => rw [drained_nil hq]; rfl
  | cons c rest ih =>
    obtain ⟨⟨v, hv, -, hrest, -, hheld⟩, -⟩ := transmitLeavesReceiveSide s
    obtain rfl := Host.Outcome.next.inj hv
    have htail : (txEngine s).txq = rest := by rw [txEngine_txq, hq, List.tail_cons]
    have hstep : Sys2Proof.core.step s = .next (txEngine s) := step_idle hh hs
    simp only [List.length_cons, Host.Core.run, hstep, ← drained_txEngine hq]
    exact ih htail (hheld.trans hh) (hrest.schedule.trans hs)

/-- Settles O38: one step of the idle block for each Command, by induction on the queue. -/
theorem queueDrainsInOrder : Obligations.QueueDrainsInOrder := fun _ hh hs => run_drains _ rfl hh hs

/-! ### A sync after bytes that hold none (R103, R112) -/

theorem findSync_overflowTrim {buf : List Byte} (cap : Nat) (h : findSync buf = none) :
    findSync (overflowTrim cap buf) = none := by
  unfold overflowTrim
  split_ifs
  · rfl
  · rfl
  · exact h

theorem findSync_append_sync0 {buf : List Byte} (h : findSync buf = none) : findSync (buf ++ [0x55#8]) = none := by
  rw [findSync_noise h _ [] (.inr (by decide))]
  rfl

theorem findSync_append_sync {buf : List Byte} (h : findSync buf = none) :
    findSync (buf ++ [0x55#8, 0xAA#8]) = some buf.length := by
  rw [findSync_noise h _ [0xAA#8] (.inr (by decide)), findSync_sync]
  simp

/-- The trim keeps a last byte 55. -/
theorem overflowTrim_append_sync0 {buf : List Byte} (h : findSync buf = none) :
    ∃ kept, findSync kept = none ∧ overflowTrim 8201 (buf ++ [0x55#8]) = kept ++ [0x55#8] := by
  unfold overflowTrim
  split_ifs with hfull hlast
  · exact ⟨[], rfl, rfl⟩
  · rw [List.length_append, List.length_singleton] at hfull
    have hlen : buf.length = 8200 := by omega
    simp [byteAt, ← hlen] at hlast
  · exact ⟨buf, h, rfl⟩

/-- A pass that finds no frame only shortens RXBUF. -/
theorem receivePass_noFrame {s : State} {rest : List Byte} (h : decodeFrames .le s.rxbuf = ⟨[], 0, rest⟩) :
    receivePass s = { s with rxbuf := rest } := by
  rw [receivePass_eq, h]
  simp

/-- The two sync bytes after bytes that hold no sync leave RXBUF with themselves. -/
theorem pushBytes_sync {s : State} (h : findSync s.rxbuf = none) :
    pushBytes s [0x55#8, 0xAA#8] = { s with rxbuf := [0x55#8, 0xAA#8] } := by
  have hfirst := findSync_append_sync0 (findSync_overflowTrim 8201 h)
  obtain ⟨kept, hkept, htrim⟩ := overflowTrim_append_sync0 (findSync_overflowTrim 8201 h)
  have hpass : decodeFrames .le (kept ++ [0x55#8] ++ [0xAA#8]) = ⟨[], 0, [0x55#8, 0xAA#8]⟩ := by
    rw [List.append_assoc, List.singleton_append, decodeFrames_drop .le (findSync_append_sync hkept), List.drop_left]
    exact decodeFrames_wait .le (findSync_sync []) (.inl (by decide))
  rw [pushBytes_cons, pushByte_eq, receivePass_noFrame (decodeFrames_none .le hfirst), pushBytes_cons, pushByte_eq,
    htrim, receivePass_noFrame hpass, pushBytes_nil]

/-- Bytes that begin with a sync do what they do into an empty RXBUF, if RXBUF holds no sync. -/
theorem pushBytes_sync_of_hunt {s : State} (h : findSync s.rxbuf = none) (bs : List Byte) :
    pushBytes s (0x55#8 :: 0xAA#8 :: bs) = pushBytes { s with rxbuf := [] } (0x55#8 :: 0xAA#8 :: bs) := by
  have split : 0x55#8 :: 0xAA#8 :: bs = [0x55#8, 0xAA#8] ++ bs := rfl
  rw [split, pushBytes_append, pushBytes_append, pushBytes_sync h, pushBytes_sync (s := { s with rxbuf := [] }) rfl]

/-! ### A stream of device messages (R50) -/

/-- R144: the payload of a PositionReached, read back. -/
theorem toEvent_positionReached (x y : Word32) :
    toEvent ⟨[0x91#8], some 2#3, leBytes32 x ++ leBytes32 y⟩ = .ok (.positionReached x y) := by
  have hread : toEvent ⟨[0x91#8], some 2#3, leBytes32 x ++ leBytes32 y⟩ =
      .ok (.positionReached (leU32 (leBytes32 x ++ leBytes32 y) 0) (leU32 (leBytes32 x ++ (leBytes32 y ++ [])) 4)) := rfl
  rw [hread, leU32_leBytes, leU32_leBytes_four]

/-- R145: the payload of a GetPositionResponse, read back. -/
theorem toEvent_getPositionResponse (x y : Word32) (flag : Byte) :
    toEvent ⟨[0x93#8], some 2#3, leBytes32 x ++ (leBytes32 y ++ [flag])⟩ = .ok (.getPositionResponse x y flag) := by
  have hread : toEvent ⟨[0x93#8], some 2#3, leBytes32 x ++ (leBytes32 y ++ [flag])⟩ =
      .ok (.getPositionResponse (leU32 (leBytes32 x ++ (leBytes32 y ++ [flag])) 0)
        (leU32 (leBytes32 x ++ (leBytes32 y ++ [flag])) 4) flag) := rfl
  rw [hread, leU32_leBytes, leU32_leBytes_four]

/-- A device message is one frame, whose Command maps to the Event the message reports (R71, R143 to R145). -/
theorem encode_message {i : Instr} {e : Event} (h : messageEvent i = some e) :
    ∃ cmd rsv st p, encode i = wireFrame .le cmd rsv st p ∧ p.length ≤ 8191 ∧
      toEvent ⟨[cmd], some st, p⟩ = .ok e := by
  cases i with
  | setPositionAck rsv =>
    obtain rfl := Option.some.inj h
    exact ⟨_, _, _, _, rfl, by decide, rfl⟩
  | positionReached rsv x y =>
    obtain rfl := Option.some.inj h
    exact ⟨_, _, _, _, rfl, by simp, toEvent_positionReached x y⟩
  | getPositionResponse rsv x y flag =>
    obtain rfl := Option.some.inj h
    exact ⟨_, _, _, _, rfl, by simp, toEvent_getPositionResponse x y flag⟩
  | errorResponse cmd rsv cause =>
    obtain rfl := Option.some.inj h
    exact ⟨_, _, _, _, rfl, by simp, rfl⟩
  | _ => simp [messageEvent] at h

theorem pushBytes_message {s : State} {i : Instr} {e : Event} (h : messageEvent i = some e) (hs : s.rxbuf = [])
    (hl : s.outq.length < 10) :
    pushBytes s (encode i) = { s with outq := s.outq ++ [e], cnt := s.cnt.oneFrame } := by
  obtain ⟨cmd, rsv, st, p, henc, hp, hmap⟩ := encode_message h
  rw [henc, pushBytes_wireFrame hs cmd rsv st hp, deliver_queued hmap (by exact hl)]

theorem pushBytes_messages {ms : List Instr} {es : List Event} (h : ms.map messageEvent = es.map some) {s : State}
    (hs : s.rxbuf = []) (hl : s.outq.length + es.length ≤ 10) :
    pushBytes s (ms.flatMap encode) = { s with
      outq := s.outq ++ es, cnt := { s.cnt with framesOk := s.cnt.framesOk + BitVec.ofNat 32 es.length } } := by
  induction ms generalizing es s with
  | nil =>
    obtain rfl : es = [] := by simpa using h
    simp
  | cons m ms ih =>
    cases es with
    | nil => simp at h
    | cons e es =>
      obtain ⟨hm, hms⟩ := List.cons.inj h
      rw [List.length_cons] at hl
      have hroom : (s.outq ++ [e]).length + es.length ≤ 10 := by
        rw [List.length_append, List.length_singleton]
        omega
      rw [List.flatMap_cons, pushBytes_append, pushBytes_message hm hs (by omega),
        ih hms (s := { s with outq := s.outq ++ [e], cnt := s.cnt.oneFrame }) hs hroom]
      simp [Counters.oneFrame, BitVec.ofNat_add, add_assoc, add_comm 1#32]

/-- Settles O43: the first sync empties RXBUF, and each message then puts its Event at the tail of OUTQ, by induction on
the messages. -/
theorem receiveOrderPreserved : Obligations.ReceiveOrderPreserved := by
  intro s ms es h hne hhunt hl
  cases ms with
  | nil => exact absurd rfl hne
  | cons m ms =>
    have hsync : ∃ bs, (m :: ms).flatMap encode = 0x55#8 :: 0xAA#8 :: bs := by
      cases es with
      | nil => simp at h
      | cons e es =>
        obtain ⟨cmd, rsv, st, p, henc, -, -⟩ := encode_message (List.cons.inj h).1
        exact ⟨_, by rw [List.flatMap_cons, henc]; rfl⟩
    obtain ⟨bs, hbs⟩ := hsync
    have hpush := pushBytes_messages h (s := { s with rxbuf := [] }) rfl hl
    rw [hbs, ← pushBytes_sync_of_hunt ((hunt_iff _ _).mp hhunt), ← hbs] at hpush
    exact congrArg (fun t => Host.Outcome.next (t.setResp .nothing)) hpush

end Sys2Proof.Machine
end

section
/-! PROOFS. Offered items (spec/30_encoding.md R60, R71, R78; log entry 2): the decoder reads back what the encoder writes,
and reads nothing else. Both go through the message map for a frame and through one part reader for any other item. -/

namespace Sys2Proof

open Sys2Proof.Machine

/-! ### What the encoder writes is read back -/

/-- Two 32-bit fields that fill a payload read back (R13). -/
theorem leU32_pair (x y : Word32) :
    leU32 (leBytes32 x ++ leBytes32 y) 0 = x ∧ leU32 (leBytes32 x ++ leBytes32 y) 4 = y :=
  ⟨leU32_leBytes x _, by simpa using leU32_leBytes_four x y []⟩

/-- A message is one frame, whose parts the message map reads as the message (R71). -/
theorem encode_frame {i : Instr} (h : opcodeByte i = Config.sync0) :
    ∃ cmd rsv st p, encode i = wireFrame .le cmd rsv st p ∧ p.length ≤ 8191 ∧
      ∀ rest, classifyFrame cmd rsv st p rest = .ok i rest := by
  cases i with
  | setPositionRequest x y =>
    obtain ⟨hx, hy⟩ := leU32_pair x y
    exact ⟨_, _, _, _, rfl, by simp, fun rest => by simp [classifyFrame, hx, hy]⟩
  | getPositionRequest => exact ⟨_, _, _, _, rfl, by simp, fun _ => rfl⟩
  | setPositionAck rsv => exact ⟨_, _, _, _, rfl, by simp, fun _ => rfl⟩
  | positionReached rsv x y =>
    obtain ⟨hx, hy⟩ := leU32_pair x y
    exact ⟨_, _, _, _, rfl, by simp, fun rest => by simp [classifyFrame, hx, hy]⟩
  | getPositionResponse rsv x y flag =>
    have hflag : byteAt (leBytes32 x ++ (leBytes32 y ++ [flag])) 8 = flag := rfl
    exact ⟨_, _, _, _, rfl, by simp, fun rest => by
      simp [classifyFrame, leU32_leBytes, leU32_leBytes_four, hflag]⟩
  | errorResponse cmd rsv cause => exact ⟨_, _, _, _, rfl, by simp, fun _ => rfl⟩
  | _ => simp [opcodeByte, Config.sync0] at h

theorem Parsed.andThen_of_got {α : Type} {p : Parsed α} {a : α} {rest : List Byte} (h : p = .got a rest)
    (f : α → List Byte → Decoded) : p.andThen f = f a rest := by
  rw [h, Parsed.andThen]

theorem decodeSubmitCmd_commandRecordBytes {r : CommandRecord} (hp : r.command.payloadFits = true)
    (hc : r.command.cmdFits = true) (rest : List Byte) :
    decodeSubmitCmd (commandRecordBytes r ++ rest) = .ok (.txSubmitCmd r) rest :=
  (Parsed.andThen_of_got (parseCommandRecord_commandRecordBytes r rest hp) _).trans (if_pos hc)

theorem decodeStatRead_number (n : BitVec 3) (rest : List Byte) :
    decodeStatRead ((0#5 ++ n) :: rest) = .ok (.statRead n) rest := by
  obtain ⟨hhigh, hlow⟩ := low_three n
  rw [decodeStatRead, if_pos hhigh, hlow]

theorem decodePushSeq_markedBytes {bs : List Byte} (h : (Instr.rxPushSeq bs).wellFormed = true) (rest : List Byte) :
    decodePushSeq (markedBytes bs ++ rest) = .ok (.rxPushSeq bs) rest :=
  (Parsed.andThen_of_got (parseMarked_markedBytes bs rest) _).trans (if_neg (by simpa [Instr.wellFormed] using h))

/-- Settles O58: a message by the message map; any other item has its own opcode byte, which leads to the arm of the decoder
that reads its operands back. -/
theorem decodeOfEncode : Obligations.DecodeOfEncode := by
  intro i rest hw
  by_cases hm : opcodeByte i = Config.sync0
  · obtain ⟨cmd, rsv, st, p, henc, hp, hread⟩ := encode_frame hm
    rw [henc, decode_wireFrame cmd rsv st p rest hp, hread]
  · cases i with
    | checksum bs => exact Parsed.andThen_of_got (parseMarked_markedBytes bs rest) _
    | decodePass => rfl
    | encode c => exact Parsed.andThen_of_got (parseCommand_commandBytes c rest hw) _
    | toEvent c => exact Parsed.andThen_of_got (parseCommand_commandBytes c rest hw) _
    | toCommand r => exact Parsed.andThen_of_got (parseRecord_recordBytes r rest) _
    | rxPush b => rfl
    | outPop => rfl
    | txSubmitCmd r =>
      obtain ⟨hp, hc⟩ := (Bool.and_eq_true _ _).mp hw
      exact decodeSubmitCmd_commandRecordBytes hp hc rest
    | txSubmitReq r => exact Parsed.andThen_of_got (parseRecord_recordBytes r rest) _
    | txStep => rfl
    | statRead n => exact decodeStatRead_number n rest
    | reset => rfl
    | rxPushSeq bs => exact decodePushSeq_markedBytes hw rest
    | _ => exact absurd rfl hm

/-! ### What is read is what the encoder writes -/

/-- What was read, written again and followed by what was left, is bs; bytes refused by name can be any. -/
def Decoded.Covers (bs : List Byte) : Decoded → Prop
  | .ok i rest => bs = encode i ++ rest
  | .bad _ => True

theorem Decoded.Covers.ite {bs : List Byte} {p : Prop} [Decidable p] {a b : Decoded} (ha : p → a.Covers bs)
    (hb : ¬p → b.Covers bs) : (if p then a else b).Covers bs :=
  iteInduction (motive := Decoded.Covers bs) ha hb

theorem Decoded.Covers.andThen {bs : List Byte} {α : Type} {p : Parsed α} {f : α → List Byte → Decoded}
    (h : ∀ a t, p = .got a t → (f a t).Covers bs) : (p.andThen f).Covers bs := by
  cases p with
  | got a t => exact h a t rfl
  | err e => trivial

/-- A payload of one byte is the raw cause byte (R143). -/
theorem causePayload_of_length {p : List Byte} (h : p.length = 1) : [byteAt p 0] = p := by
  obtain ⟨b, rfl⟩ := List.length_eq_one_iff.mp h
  rfl

/-- A payload of eight bytes is its two fields (R144, R152). -/
theorem positionPayload_of_length {p : List Byte} (h : p.length = 8) :
    leBytes32 (leU32 p 0) ++ leBytes32 (leU32 p 4) = p := by
  match p, h with
  | [x0, x1, x2, x3, y0, y1, y2, y3], _ =>
    exact congrArg₂ (· ++ ·) (leBytes_leWord x0 x1 x2 x3) (leBytes_leWord y0 y1 y2 y3)

/-- A payload of nine bytes is its two fields and its flag (R145). -/
theorem responsePayload_of_length {p : List Byte} (h : p.length = 9) :
    leBytes32 (leU32 p 0) ++ (leBytes32 (leU32 p 4) ++ [byteAt p 8]) = p := by
  match p, h with
  | [x0, x1, x2, x3, y0, y1, y2, y3, flag], _ =>
    exact congrArg₂ (fun a b => a ++ (b ++ [flag])) (leBytes_leWord x0 x1 x2 x3) (leBytes_leWord y0 y1 y2 y3)

/-- One case for each row of the message map, in the order in which it is asked. -/
theorem classifyFrame_covers (cmd : Byte) (rsv : Reserved) (st : BitVec 3) (p rest : List Byte) :
    (classifyFrame cmd rsv st p rest).Covers (wireFrame .le cmd rsv st p ++ rest) := by
  refine .ite (fun ⟨hst, hp⟩ => ?errorResponse) fun _ => ?_
  case errorResponse =>
    subst hst
    exact congrArg (wireFrame .le cmd rsv 3#3 · ++ rest) (causePayload_of_length hp).symm
  refine .ite (fun ⟨hcmd, hst, hp⟩ => ?setPositionAck) fun _ => ?_
  case setPositionAck =>
    subst hcmd hst
    exact congrArg (wireFrame .le 0x91#8 rsv 1#3 · ++ rest) (List.eq_nil_of_length_eq_zero hp)
  refine .ite (fun ⟨hcmd, hst, hp⟩ => ?positionReached) fun _ => ?_
  case positionReached =>
    subst hcmd hst
    exact congrArg (wireFrame .le 0x91#8 rsv 2#3 · ++ rest) (positionPayload_of_length hp).symm
  refine .ite (fun ⟨hcmd, hst, hp⟩ => ?getPositionResponse) fun _ => ?_
  case getPositionResponse =>
    subst hcmd hst
    exact congrArg (wireFrame .le 0x93#8 rsv 2#3 · ++ rest) (responsePayload_of_length hp).symm
  refine .ite (fun ⟨hcmd, hst, hp⟩ => .ite (fun hrsv => ?setPositionRequest) fun _ => trivial) fun _ => ?_
  case setPositionRequest =>
    subst hcmd hst hrsv
    exact congrArg (wireFrame .le 0x31#8 Reserved.zero 0#3 · ++ rest) (positionPayload_of_length hp).symm
  refine .ite (fun ⟨hcmd, hst, hp⟩ => .ite (fun hrsv => ?getPositionRequest) fun _ => trivial) fun _ => trivial
  case getPositionRequest =>
    subst hcmd hst hrsv
    exact congrArg (wireFrame .le 0x33#8 Reserved.zero 0#3 · ++ rest) (List.eq_nil_of_length_eq_zero hp)

theorem decodeFrame_covers (t : List Byte) : (decodeFrame t).Covers (Config.sync0 :: t) := by
  cases hd : decodeFrame t with
  | bad e => trivial
  | ok i rest =>
    obtain ⟨cmd, rsv, st, p, rest', -, hbs, hread⟩ := decodeFrame_ok hd
    have hc := classifyFrame_covers cmd rsv st p rest'
    rwa [hread, ← hbs] at hc

theorem decodeRxPush_covers (t : List Byte) : (decodeRxPush t).Covers (0x10#8 :: t) := by
  cases t with
  | nil => trivial
  | cons b rest => exact rfl

theorem decodeSubmitCmd_covers (t : List Byte) : (decodeSubmitCmd t).Covers (0x12#8 :: t) :=
  .andThen fun _ _ hr => .ite (fun _ => congrArg (0x12#8 :: ·) (parseCommandRecord_got hr).1) fun _ => trivial

theorem decodeStatRead_covers (t : List Byte) : (decodeStatRead t).Covers (0x15#8 :: t) := by
  cases t with
  | nil => trivial
  | cons b rest => exact .ite (fun hb => congrArg (0x15#8 :: · :: rest) (low_three_back hb).symm) fun _ => trivial

theorem decodePushSeq_covers (t : List Byte) : (decodePushSeq t).Covers (0x17#8 :: t) :=
  .andThen fun _ _ hl => .ite (fun _ => trivial) fun _ => congrArg (0x17#8 :: ·) (parseMarked_got hl)

/-- One line for each arm of the decoder, in its order. -/
theorem decode_covers (bs : List Byte) : (decode bs).Covers bs := by
  cases bs with
  | nil => trivial
  | cons op t =>
    refine .ite (fun hop => hop ▸ decodeFrame_covers t) fun _ => ?_
    refine .ite (fun hop => .andThen fun _ _ hl => congrArg₂ List.cons hop (parseMarked_got hl)) fun _ => ?_
    refine .ite (fun hop => congrArg (· :: t) hop) fun _ => ?_
    refine .ite (fun hop => .andThen fun _ _ hc => congrArg₂ List.cons hop (parseCommand_got hc).1) fun _ => ?_
    refine .ite (fun hop => .andThen fun _ _ hc => congrArg₂ List.cons hop (parseCommand_got hc).1) fun _ => ?_
    refine .ite (fun hop => .andThen fun _ _ hr => congrArg₂ List.cons hop (parseRecord_got hr)) fun _ => ?_
    refine .ite (fun hop => hop ▸ decodeRxPush_covers t) fun _ => ?_
    refine .ite (fun hop => congrArg (· :: t) hop) fun _ => ?_
    refine .ite (fun hop => hop ▸ decodeSubmitCmd_covers t) fun _ => ?_
    refine .ite (fun hop => .andThen fun _ _ hr => congrArg₂ List.cons hop (parseRecord_got hr)) fun _ => ?_
    refine .ite (fun hop => congrArg (· :: t) hop) fun _ => ?_
    refine .ite (fun hop => hop ▸ decodeStatRead_covers t) fun _ => ?_
    refine .ite (fun hop => congrArg (· :: t) hop) fun _ => ?_
    exact .ite (fun hop => hop ▸ decodePushSeq_covers t) fun _ => trivial

/-- Settles O59: every arm of the decoder reads what the encoder writes, and what it lets through is presentable. -/
theorem encodeOfDecode : Obligations.EncodeOfDecode := by
  intro bs rest i h
  have hc := decode_covers bs
  rw [h] at hc
  exact ⟨decode_wellFormed h, hc⟩

/-- Settles O60: the three frames are what the encoder writes for the three messages, so O58 reads them back. -/
theorem framesReadAsMessages : Obligations.FramesReadAsMessages :=
  ⟨decodeOfEncode (.setPositionRequest 0x3F800000#32 0x40000000#32) [] rfl,
    decodeOfEncode (.setPositionAck Reserved.zero) [] rfl,
    decodeOfEncode (.errorResponse 0x91#8 Reserved.zero 1#8) [] rfl⟩

end Sys2Proof
end

section
/-! PROOFS. The fields (spec/30_encoding.md): len_flags as a number and as two bytes (R63 to R65), the status, cause and
result codes (R67, R68, R79), the 83-bit record (R75, R76) and the rows of the opcode table (R80). -/

namespace Sys2Proof.Machine

/-! ### len_flags (R63 to R65) -/

theorem lenFlags_toNat (b7 b8 : Byte) : (lenFlags .le b7 b8).toNat = b8.toNat * 256 + b7.toNat := by
  rw [lenFlags, BitVec.toNat_append, ← Nat.shiftLeft_add_eq_or_of_lt b7.isLt, Nat.shiftLeft_eq]

/-- Settles O4: both fields are cut from the number b8*256 + b7. -/
theorem lenFlagsExtraction : Obligations.LenFlagsExtraction := by
  refine ⟨rfl, fun b7 b8 => ⟨lenFlags_toNat b7 b8, ?_, ?_, rfl⟩⟩
  · rw [payloadLen, BitVec.extractLsb'_toNat, lenFlags_toNat, Nat.shiftRight_zero]
    omega
  · rw [statusBits, BitVec.extractLsb'_toNat, lenFlags_toNat, Nat.shiftRight_eq_div_pow]
    omega

theorem lenFlagsOf_zero_toNat (n : Nat) : (lenFlagsOf 0#3 n).toNat = n % 8192 := by
  rw [lenFlagsOf, BitVec.toNat_append, BitVec.toNat_ofNat]
  simp

theorem lenFlagsOf_zero_low (n : Nat) : (lenFlagsOf 0#3 n).extractLsb' 0 8 = BitVec.ofNat 8 (n % 8192) := by
  apply BitVec.eq_of_toNat_eq
  rw [BitVec.extractLsb'_toNat, lenFlagsOf_zero_toNat, Nat.shiftRight_zero, BitVec.toNat_ofNat]

theorem lenFlagsOf_zero_high (n : Nat) : (lenFlagsOf 0#3 n).extractLsb' 8 8 = BitVec.ofNat 8 (n % 8192 / 256) := by
  apply BitVec.eq_of_toNat_eq
  rw [BitVec.extractLsb'_toNat, lenFlagsOf_zero_toNat, Nat.shiftRight_eq_div_pow, BitVec.toNat_ofNat]

/-- Settles O5: the low and the high byte of the masked length, which `lenFlagsBytes_spec` joins again. -/
theorem lenFlagsInsertion : Obligations.LenFlagsInsertion := by
  intro n
  refine ⟨lenFlagsOf_zero_toNat n, ?_, ?_, fun o b7 b8 hb => ?_⟩
  · rw [lenFlagsBytes, lenFlagsOf_zero_low, lenFlagsOf_zero_high]
  · rw [lenFlagsBytes, lenFlagsOf_zero_low, lenFlagsOf_zero_high]
  · obtain ⟨c7, c8, hc, hread⟩ := lenFlagsBytes_spec o (lenFlagsOf 0#3 n)
    obtain ⟨rfl, rfl⟩ : b7 = c7 ∧ b8 = c8 := by simpa using hb.symm.trans hc
    exact hread

/-! ### The codes (R67, R68, R79) -/

theorem normCause_of_ge {b : Byte} (h : 8 ≤ b.toNat) : normCause b = .unspecifiedError := by
  have ne : ∀ k : Byte, k.toNat < 8 → b ≠ k := by
    rintro k hk rfl
    omega
  simp [normCause, ne]

theorem causeCode_normCause_of_le {b : Byte} (h : b.toNat ≤ 7) : causeCode (normCause b) = b := by
  have named : ∀ k : Fin 8, causeCode (normCause (BitVec.ofNat 8 k)) = BitVec.ofNat 8 k := by decide
  simpa using named ⟨b.toNat, by omega⟩

/-- Settles O6: the tables row by row, and one argument for all the cause bytes from 8 on. -/
theorem statusCauseAndResultCodes : Obligations.StatusCauseAndResultCodes := by
  refine ⟨⟨rfl, rfl, rfl, rfl, by decide⟩, ⟨rfl, rfl, rfl, rfl, rfl, rfl, rfl, rfl⟩, fun _ => normCause_of_ge,
    fun b => ?_, rfl, rfl, rfl, rfl⟩
  split_ifs with h
  · exact causeCode_normCause_of_le h
  · rw [normCause_of_ge (by omega)]
    rfl

/-! ### The 83-bit record (R75, R76) -/

/-- Five fields joined are cut apart again at the places of R76. -/
theorem extract_joined_fields (kind : BitVec 3) (x y : Word32) (flag cause : Byte) :
    (kind ++ x ++ y ++ flag ++ cause).extractLsb' 80 3 = kind ∧ (kind ++ x ++ y ++ flag ++ cause).extractLsb' 48 32 = x ∧
    (kind ++ x ++ y ++ flag ++ cause).extractLsb' 16 32 = y ∧ (kind ++ x ++ y ++ flag ++ cause).extractLsb' 8 8 = flag ∧
    (kind ++ x ++ y ++ flag ++ cause).extractLsb' 0 8 = cause := by
  simp [BitVec.extractLsb'_append_eq_of_le, BitVec.extractLsb'_append_eq_of_add_le, -Nat.reduceAdd]

theorem recordOfBits_recordBits (r : PortRecord) : recordOfBits (recordBits r) = r := by
  obtain ⟨kind, x, y, flag, cause⟩ := r
  rw [recordOfBits, PortRecord.mk.injEq]
  exact extract_joined_fields kind x y flag cause

/-- The five places of R76 lie side by side and fill the 83 bits. -/
theorem recordBits_recordOfBits (v : BitVec 83) : recordBits (recordOfBits v) = v := by
  simp only [recordBits, recordOfBits]
  rw [BitVec.extractLsb'_append_extractLsb'_eq_extractLsb' (show 80 = 48 + 32 from rfl),
    BitVec.extractLsb'_append_extractLsb'_eq_extractLsb' (show 48 = 16 + 32 from rfl),
    BitVec.extractLsb'_append_extractLsb'_eq_extractLsb' (show 16 = 8 + 8 from rfl),
    BitVec.extractLsb'_append_extractLsb'_eq_extractLsb' (show 8 = 0 + 8 from rfl)]
  exact BitVec.extractLsb'_eq_self

/-- Settles O7: records and bits give each other back, and each kind has its own record. -/
theorem portRecordLayout : Obligations.PortRecordLayout := by
  refine ⟨fun r => ?_, recordBits_recordOfBits, rfl, fun _ _ => rfl, fun _ _ _ => rfl, fun _ => rfl, fun _ _ => rfl, rfl,
    fun r hk => ?_⟩
  · have h := recordOfBits_recordBits r
    exact ⟨congrArg PortRecord.kind h, congrArg PortRecord.x h, congrArg PortRecord.y h, congrArg PortRecord.flag h,
      congrArg PortRecord.cause h, h⟩
  · rcases hk with hk | hk <;> simp [recordEvent, hk]

/-! ### The message rows of the opcode table (R80) -/

/-- Two rows that cover one key agree on the bits that both of them look at. -/
theorem kindMatch_agree_of_covers {r q : KeyRow} {key : Nat} (hr : r.covers key = true) (hq : q.covers key = true) :
    r.kindMatch &&& q.kindMask = q.kindMatch &&& r.kindMask := by
  rw [← of_decide_eq_true hr, ← of_decide_eq_true hq]
  exact Nat.and_right_comm key r.kindMask q.kindMask

/-- Settles O8: any two of the six rows differ in a bit that both look at, so no key is covered by both. -/
theorem messageRowsDisjoint : Obligations.MessageRowsDisjoint := by
  have apart : ∀ r ∈ keyRows, ∀ q ∈ keyRows, r.kindMatch &&& q.kindMask = q.kindMatch &&& r.kindMask → r = q := by
    decide
  exact fun r hr q hq key hrk hqk => apart r hr q hq (kindMatch_agree_of_covers hrk hqk)

end Sys2Proof.Machine
end

section
/-! PROOFS. The messages and pushed sequences as transactions (spec/30_encoding.md R71, R81; log entry 3): a device message
is its frame pushed, a request message is its submission, whose frame TX_STEP writes. -/

namespace Sys2Proof.Machine

/-! ### RX_PUSH_SEQ (R81) -/

/-- Settles O28: the answer of the first push plays no part in the others. -/
theorem pushSequenceExpands : Obligations.PushSequenceExpands := by
  intro s b bs
  refine ⟨rfl, fun _ => ⟨(pushByte s b).setResp .nothing, rfl, ?_⟩⟩
  simp only [exec, execRxPushSeq, pushBytes_setResp]
  rfl

/-! ### Device messages (R71, R108) -/

theorem exec_message {i : Instr} {e : Event} (h : messageEvent i = some e) (s : State) :
    exec i s = exec (.rxPushSeq (encode i)) s := by
  cases i with
  | setPositionAck rsv => rfl
  | positionReached rsv x y => rfl
  | getPositionResponse rsv x y flag => rfl
  | errorResponse cmd rsv cause => rfl
  | _ => simp [messageEvent] at h

/-- A whole frame that arrives while RXBUF holds no sync leaves it empty, and its Command is delivered. -/
theorem pushBytes_wireFrame_of_hunt {s : State} (h : findSync s.rxbuf = none) (cmd : Byte) (rsv : Reserved)
    (st : BitVec 3) {p : List Byte} (hp : p.length ≤ 8191) :
    pushBytes s (wireFrame .le cmd rsv st p) =
      deliver { s with rxbuf := [], cnt := s.cnt.oneFrame } ⟨[cmd], some st, p⟩ :=
  (pushBytes_sync_of_hunt h _).trans (pushBytes_wireFrame (s := { s with rxbuf := [] }) rfl cmd rsv st hp)

/-- Settles O42: the frame of the message is delivered from HUNT, into an OUTQ with room or a full one. -/
theorem deviceMessageDelivered : Obligations.DeviceMessageDelivered := by
  intro i e s h
  obtain ⟨cmd, rsv, st, p, henc, hp, hmap⟩ := encode_message h
  have delivered : phase .le s.rxbuf = .hunt → exec i s =
      .next ((deliver { s with rxbuf := [], cnt := s.cnt.oneFrame } ⟨[cmd], some st, p⟩).setResp .nothing) := by
    intro hhunt
    rw [exec_message h, henc, ← pushBytes_wireFrame_of_hunt ((hunt_iff _ _).mp hhunt) cmd rsv st hp]
    rfl
  refine ⟨exec_message h s, fun hhunt hl => ?_, fun hhunt hl => ?_⟩
  · rw [delivered hhunt, deliver_queued hmap (by exact hl)]
    rfl
  · rw [delivered hhunt, deliver_dropped hmap (by exact hl)]
    rfl

/-! ### Request messages (R152, R153, R174) -/

/-- A request message submits one Command, whose frame is the message's own. -/
theorem exec_request {i : Instr} (h : i = .getPositionRequest ∨ ∃ x y, i = .setPositionRequest x y) :
    ∃ b p, (∀ s, exec i s = .next (submit s i (.ok ⟨[b], none, p⟩))) ∧
      encode i = wireFrame .le b Reserved.zero 0#3 p := by
  rcases h with rfl | ⟨x, y, rfl⟩ <;> exact ⟨_, _, fun _ => rfl, rfl⟩

/-- Settles O45: the Command enters the empty TXQ, and TX_STEP takes it off again and writes its frame. -/
theorem requestFrameIsSent : Obligations.RequestFrameIsSent := by
  intro i s hi hq
  obtain ⟨b, p, hexec, henc⟩ := exec_request hi
  have hqueued := submit_ok (s := s) (by simp [hq]) i ⟨[b], none, p⟩
  rw [hq, List.nil_append] at hqueued
  have hsent := txEngine_sent (s := submit s i (.ok ⟨[b], none, p⟩)) (congrArg (·.txq) hqueued) rfl
  refine ⟨_, _, hexec s, rfl, ?_⟩
  rw [hsent, hqueued, henc]
  exact ⟨rfl, rfl, rfl, rfl, rfl, rfl, rfl, rfl, rfl, rfl⟩

end Sys2Proof.Machine
end

section
/-! PROOFS. The checksum (spec/40_checksum.md): its order independence (R90), the checksum gate as a fold to 0 (R92), and
what a changed byte does to the fold and so to the verdict over a frame of fixed length (R93). -/

namespace Sys2Proof.Machine

/-! ### Order independence (R90) -/

theorem checksum_perm {a b : List Byte} (h : a.Perm b) : checksum a = checksum b :=
  h.foldl_eq' (fun x _ y _ acc => show acc ^^^ x ^^^ y = acc ^^^ y ^^^ x by ac_rfl) 0#8

/-- Settles O1: the fold's own equations, and order independence since exclusive or commutes. -/
theorem checksumFoldsXor : Obligations.ChecksumFoldsXor := by
  refine ⟨fun _ _ => rfl, checksum_nil, fun b => ?_, fun bs b => ?_, fun _ _ => checksum_perm, by decide⟩
  · simp
  · simp

/-! ### The checksum gate as a fold to 0 (R92) -/

theorem slice_succ {f : List Byte} {i j : Nat} (hi : i ≤ j) (hj : j < f.length) :
    slice f i (j + 1) = slice f i j ++ [byteAt f j] := by
  have htake : f.take (j + 1) = f.take j ++ [byteAt f j] := by simp [byteAt, hj]
  have hlen : i ≤ (f.take j).length := by simp; omega
  simp only [slice, htake, List.drop_append_of_le_length hlen]

theorem frameValid_iff {f : List Byte} {flen : Nat} (h3 : 3 ≤ flen) (hlen : flen ≤ f.length) :
    frameValid f flen = true ↔ checksum (slice f 2 flen) = 0#8 := by
  obtain ⟨n, rfl⟩ : ∃ n, flen = n + 1 := ⟨flen - 1, by omega⟩
  rw [slice_succ (by omega) (by omega), checksum_append]
  simp [frameValid]

/-- Settles O2: a checksum cancels itself, and so the trailing byte is the checksum exactly when the two fold to 0. -/
theorem checksumIsItsOwnInverse : Obligations.ChecksumIsItsOwnInverse :=
  ⟨fun bs => by simp, fun _ _ => frameValid_iff⟩

/-! ### A changed byte (R93) -/

/-- The verdict over a frame whose boundary is its own length: one fold from offset 2 on. -/
theorem frameValid_whole {f : List Byte} {n : Nat} (h3 : 3 ≤ n) (hlen : f.length = n) :
    frameValid f n = decide (checksum (f.drop 2) = 0#8) := by
  subst hlen
  rw [Bool.eq_iff_iff, frameValid_iff h3 le_rfl, decide_eq_true_iff, slice, List.take_length]

theorem frameValid_congr {f g : List Byte} (h3 : 3 ≤ f.length) (hlen : g.length = f.length)
    (hfold : checksum (g.drop 2) = checksum (f.drop 2)) : frameValid g f.length = frameValid f f.length := by
  rw [frameValid_whole h3 hlen, hfold, frameValid_whole h3 rfl]

theorem checksum_set {s : List Byte} {i : Nat} (hi : i < s.length) (b : Byte) :
    checksum (s.set i b) = checksum s ^^^ (byteAt s i ^^^ b) := by
  induction s generalizing i with
  | nil => simp at hi
  | cons a s ih =>
    cases i with
    | zero =>
      have hcancel : a ^^^ checksum s ^^^ (a ^^^ b) = a ^^^ a ^^^ (b ^^^ checksum s) := by ac_rfl
      simp [byteAt, hcancel]
    | succ i =>
      have htail := ih (i := i) (by simpa using hi)
      rw [List.set_cons_succ, checksum_cons, htail, checksum_cons, BitVec.xor_assoc]
      rfl

/-- A byte written at offset 2 or later moves the fold by the exclusive or of the old byte and the new one. -/
theorem checksum_drop_set {f : List Byte} {i : Nat} (h2 : 2 ≤ i) (hi : i < f.length) (b : Byte) :
    checksum ((f.set i b).drop 2) = checksum (f.drop 2) ^^^ (byteAt f i ^^^ b) := by
  have hbyte : byteAt (f.drop 2) (i - 2) = byteAt f i := by
    simp [byteAt, Nat.add_sub_cancel' h2]
  rw [List.drop_set, if_neg (by omega), checksum_set (by simp; omega), hbyte]

theorem twoPow_ne_zero {k : Nat} (hk : k < 8) : BitVec.twoPow 8 k ≠ 0#8 := fun h => by
  have hbit := congrArg (·.getLsbD k) h
  simp [hk] at hbit

@[simp] theorem flipBit_length (f : List Byte) (i k : Nat) : (flipBit f i k).length = f.length := List.length_set

theorem checksum_drop_flipBit {f : List Byte} {i : Nat} (h2 : 2 ≤ i) (hi : i < f.length) (k : Nat) :
    checksum ((flipBit f i k).drop 2) = checksum (f.drop 2) ^^^ BitVec.twoPow 8 k := by
  rw [flipBit, checksum_drop_set h2 hi, ← BitVec.xor_assoc (byteAt f i), BitVec.xor_self, BitVec.zero_xor]

theorem checksum_drop_flipBit_pair {f : List Byte} {i j : Nat} (hi2 : 2 ≤ i) (hi : i < f.length) (hj2 : 2 ≤ j)
    (hj : j < f.length) (k : Nat) : checksum ((flipBit (flipBit f i k) j k).drop 2) = checksum (f.drop 2) := by
  rw [checksum_drop_flipBit hj2 (by simpa using hj), checksum_drop_flipBit hi2 hi, BitVec.xor_assoc, BitVec.xor_self,
    BitVec.xor_zero]

theorem byteAt_set_byteAt {f : List Byte} {i j : Nat} (hi : i < f.length) :
    byteAt (f.set i (byteAt f j)) j = byteAt f j := by
  by_cases hij : i = j
  · subst hij
    simp [byteAt, hi]
  · simp [byteAt, hij]

theorem checksum_drop_swap {f : List Byte} {i j : Nat} (hi2 : 2 ≤ i) (hi : i < f.length) (hj2 : 2 ≤ j)
    (hj : j < f.length) :
    checksum (((f.set i (byteAt f j)).set j (byteAt f i)).drop 2) = checksum (f.drop 2) := by
  rw [checksum_drop_set hj2 (by simpa using hj), checksum_drop_set hi2 hi, byteAt_set_byteAt hi,
    BitVec.xor_comm (byteAt f j), BitVec.xor_assoc, BitVec.xor_self, BitVec.xor_zero]

/-- Settles O3: a single flip moves the fold from 0 to a power of two; the other three changes leave the fold as it
was. -/
theorem checksumDetectsSingleFlips : Obligations.ChecksumDetectsSingleFlips := by
  intro f hf
  have h3 : 3 ≤ f.length := by omega
  refine ⟨fun i k h2 hi hk hvalid => ?_, fun i j k hi2 hi hj2 hj _ _ => ?_, fun i j hi2 hi hj2 hj => ?_,
    fun i b hi => ?_⟩
  · have hzero : checksum (f.drop 2) = 0#8 := of_decide_eq_true (frameValid_whole h3 rfl ▸ hvalid)
    rw [frameValid_whole h3 (flipBit_length f i k), checksum_drop_flipBit h2 hi, hzero, BitVec.zero_xor]
    exact decide_eq_false (twoPow_ne_zero hk)
  · exact frameValid_congr h3 (by simp) (checksum_drop_flipBit_pair hi2 hi hj2 hj k)
  · exact frameValid_congr h3 (by simp) (checksum_drop_swap hi2 (by omega) hj2 (by omega))
  · exact frameValid_congr h3 (by simp) (by rw [List.drop_set_of_lt hi])

end Sys2Proof.Machine
end

section
/-! PROOFS. The decode pass as a function of the buffer (spec/41_decoder.md): FindSync as a least index (R102), a
complete frame at the head (R105, R106), what waits (R103, R104, R110), what a pass leaves (R107), and the overflow trim
(R113). -/

namespace Sys2Proof.Machine

/-! ### FindSync (R102) -/

theorem syncAt_cons_succ (a : Byte) (s : List Byte) (j : Nat) : syncAt (a :: s) (j + 1) ↔ syncAt s j := Iff.rfl

theorem syncAt_of_findSync {s : List Byte} {i : Nat} (h : findSync s = some i) : syncAt s i := by
  obtain ⟨t, ht⟩ := findSync_some h
  have hread : ∀ k, s[i + k]? = (0x55#8 :: 0xAA#8 :: t)[k]? := fun k => by rw [← ht, List.getElem?_drop]
  exact ⟨hread 0, hread 1⟩

/-- Where the pattern stands, FindSync answers that index or an earlier one. -/
theorem findSync_le_of_syncAt {s : List Byte} {j : Nat} (h : syncAt s j) : ∃ i ≤ j, findSync s = some i := by
  induction s generalizing j with
  | nil => simp [syncAt] at h
  | cons a s ih =>
    cases s with
    | nil => simp [syncAt] at h
    | cons b t =>
      rw [findSync_cons_cons]
      split_ifs with hab
      · exact ⟨0, Nat.zero_le j, rfl⟩
      · cases j with
        | zero => exact absurd (by simpa [syncAt] using h) hab
        | succ j =>
          obtain ⟨i, hij, hi⟩ := ih ((syncAt_cons_succ a _ j).mp h)
          exact ⟨i + 1, Nat.succ_le_succ hij, by rw [hi]; rfl⟩

theorem findSync_eq_none_iff {s : List Byte} : findSync s = none ↔ ∀ j, ¬ syncAt s j := by
  refine ⟨fun h j hj => ?_, fun h => Option.eq_none_iff_forall_ne_some.mpr fun i hi => h i (syncAt_of_findSync hi)⟩
  obtain ⟨i, -, hi⟩ := findSync_le_of_syncAt hj
  rw [h] at hi
  contradiction

theorem findSync_eq_some_iff {s : List Byte} {i : Nat} :
    findSync s = some i ↔ syncAt s i ∧ ∀ j, j < i → ¬ syncAt s j := by
  constructor
  · refine fun h => ⟨syncAt_of_findSync h, fun j hji hj => ?_⟩
    obtain ⟨k, hkj, hk⟩ := findSync_le_of_syncAt hj
    have hki : k = i := Option.some.inj (hk.symm.trans h)
    omega
  · rintro ⟨hi, hleast⟩
    obtain ⟨k, hki, hk⟩ := findSync_le_of_syncAt hi
    have hik : ¬ k < i := fun hlt => hleast k hlt (syncAt_of_findSync hk)
    rwa [show i = k by omega]

/-- Settles O9: FindSync never answers past a place of the pattern, and where it answers the pattern stands. -/
theorem findSyncIsLeast : Obligations.FindSyncIsLeast := fun _ =>
  ⟨findSync_eq_none_iff, fun _ => findSync_eq_some_iff⟩

theorem findSync_none_of_append {a b : List Byte} (h : findSync (a ++ b) = none) : findSync a = none :=
  Option.eq_none_iff_forall_ne_some.mpr fun i hi => by
    rw [findSync_append hi b] at h
    contradiction

/-! ### A complete frame at the head, with more bytes after it (R105, R106) -/

theorem frameValid_append {f : List Byte} {flen : Nat} (hpos : 0 < flen) (hlen : flen ≤ f.length) (t : List Byte) :
    frameValid (f ++ t) flen = frameValid f flen := by
  rw [frameValid, frameValid, slice_append f t 2 (flen - 1) (by omega), byteAt_append f t (flen - 1) (by omega)]

theorem commandAt_append (o : LenOrder) {f : List Byte} (h : frameLenAt o f ≤ f.length) (t : List Byte) :
    commandAt o (f ++ t) = commandAt o f := by
  have hlen : 10 + payloadLenAt o f ≤ f.length := h
  have hpayload : payloadLenAt o (f ++ t) = payloadLenAt o f := by
    simp only [payloadLenAt, byteAt_append f t 7 (by omega), byteAt_append f t 8 (by omega)]
  simp only [commandAt, hpayload, Config.hdrLen, byteAt_append f t 2 (by omega), byteAt_append f t 7 (by omega),
    byteAt_append f t 8 (by omega), slice_append f t 9 (9 + payloadLenAt o f) (by omega)]

/-- The frame that stands at the head of f is judged in the same way when more bytes follow. -/
theorem decodeFrames_frame_append (o : LenOrder) {f : List Byte} (hsync : findSync f = some 0)
    (hlen : frameLenAt o f ≤ f.length) (t : List Byte) :
    decodeFrames o (f ++ t) = (decodeFrames o (f.drop (frameLenAt o f) ++ t)).after
      (frameValid f (frameLenAt o f)) (commandAt o f) := by
  have hge := frameLenAt_ge o f
  have happ := frameLenAt_append o (b := f) (by omega) t
  rw [decodeFrames_frame o (findSync_append hsync t) (by rw [happ, List.length_append]; omega), happ,
    frameValid_append (by omega) hlen, commandAt_append o hlen, List.drop_append_of_le_length hlen]

/-- Bytes that are exactly one frame go away whole. -/
theorem decodeFrames_whole_append (o : LenOrder) {f : List Byte} (hsync : findSync f = some 0)
    (hlen : frameLenAt o f = f.length) (t : List Byte) :
    decodeFrames o (f ++ t) = (decodeFrames o t).after (frameValid f f.length) (commandAt o f) := by
  rw [decodeFrames_frame_append o hsync hlen.le, hlen, List.drop_length, List.nil_append]

/-- Settles O10: the frame that the encoding lays out is complete, valid and carries its Command. -/
theorem goodFrameGivesCommand : Obligations.GoodFrameGivesCommand := by
  intro o cmd rsv st p rest hp
  obtain ⟨hsync, hlen, hvalid, hcmd⟩ := wireFrame_facts o cmd rsv st p [] hp
  rw [List.append_nil] at hsync hlen hvalid hcmd
  rw [← wireFrame_length o cmd rsv st p] at hlen hvalid
  rw [decodeFrames_whole_append o hsync hlen, hvalid, hcmd, PassResult.after_true]

/-- Settles O11: the pass goes on after the frame, one more bad frame counted. -/
theorem corruptFrameDiscardedWhole : Obligations.CorruptFrameDiscardedWhole := by
  intro o f t rest hf _ hlen hbad
  have hsync : findSync f = some 0 := by rw [hf]; exact findSync_sync t
  rw [decodeFrames_whole_append o hsync hlen, hbad, PassResult.after_false]

/-! ### What waits (R103, R104, R110) -/

/-- The first bytes of one frame, fewer than all, are settled: a sync in them is the frame's own, and so is the length
field. -/
theorem settled_take_of_frame (o : LenOrder) {f : List Byte} (hsync : findSync f = some 0)
    (hlen : frameLenAt o f = f.length) {n : Nat} (hn : n < f.length) : settled o (f.take n) := by
  rw [settled_iff]
  cases h : findSync (f.take n) with
  | none => exact .inl rfl
  | some i =>
    have hi := findSync_append h (f.drop n)
    rw [List.take_append_drop, hsync] at hi
    have htake : (f.take n).length = n := by simp; omega
    refine .inr ⟨hi.symm, ?_⟩
    by_cases h9 : n < 10
    · exact .inl (by omega)
    · have happ := frameLenAt_append o (b := f.take n) (by omega) (f.drop n)
      rw [List.take_append_drop] at happ
      exact .inr (by omega)

/-- Settles O12: a pass does nothing on a settled buffer. -/
theorem incompleteFrameWaits : Obligations.IncompleteFrameWaits := by
  intro o cmd rsv st p n hp hn
  obtain ⟨hsync, hlen, -, -⟩ := wireFrame_facts o cmd rsv st p [] hp
  rw [List.append_nil] at hsync hlen
  rw [← wireFrame_length o cmd rsv st p] at hlen hn
  exact settled_pass o (settled_take_of_frame o hsync hlen hn)

/-- Settles O13: the first sync is the one after the bytes that hold none. -/
theorem noiseKeptThenDropped : Obligations.NoiseKeptThenDropped := by
  intro o noise t h
  refine ⟨decodeFrames_none o h, ?_⟩
  have hsync : findSync (noise ++ 0x55#8 :: 0xAA#8 :: t) = some noise.length := by
    rw [findSync_noise h _ _ (.inr (by decide)), findSync_sync]
    simp
  rw [decodeFrames_drop o hsync, List.drop_left]

/-! ### What a pass leaves (R107, R24) -/

theorem decodeFrames_rest_suffix (o : LenOrder) (buf : List Byte) : (decodeFrames o buf).rest <:+ buf := by
  induction buf using pass_induction o with
  | hnone b h => rw [decodeFrames_none o h]
  | hdrop b i h _ ih =>
    rw [decodeFrames_drop o h]
    exact ih.trans (List.drop_suffix i b)
  | hwait b h hw => rw [decodeFrames_wait o h hw]
  | hframe b h hl ih =>
    rw [decodeFrames_frame o h hl, PassResult.after_rest]
    exact ih.trans (List.drop_suffix _ b)

/-- A settled buffer outside HUNT is shorter than the frame it waits for (R62). -/
theorem settled_length_of_not_hunt {o : LenOrder} {buf : List Byte} (h : settled o buf) (hh : phase o buf ≠ .hunt) :
    buf.length ≤ 8200 := by
  have hmax := frameLenAt_le o buf
  rcases (settled_iff o buf).mp h with hnone | ⟨-, hw⟩
  · exact absurd ((hunt_iff o buf).mpr hnone) hh
  · omega

/-- Settles O14: what a pass leaves is settled, and a settled buffer is short outside HUNT and stays through a pass. -/
theorem passEndsSettled : Obligations.PassEndsSettled := by
  intro o buf
  have h := decodeFrames_rest_settled o buf
  exact ⟨h, decodeFrames_rest_suffix o buf, settled_length_of_not_hunt h, settled_pass o h⟩

/-! ### The overflow trim (R112, R113) -/

/-- The trim does nothing, keeps a last byte 55, or drops bytes that do not end in 55. -/
theorem overflowTrim_cases (cap : Nat) (buf : List Byte) :
    overflowTrim cap buf = buf ∨
    (∃ pre, buf = pre ++ [0x55#8] ∧ overflowTrim cap buf = [0x55#8]) ∨
    (buf.getLast? ≠ some 0x55#8 ∧ overflowTrim cap buf = []) := by
  by_cases hfull : buf.length = cap
  · subst hfull
    rcases List.eq_nil_or_concat' buf with rfl | ⟨pre, last, rfl⟩
    · exact .inl rfl
    · have hlast : byteAt (pre ++ [last]) ((pre ++ [last]).length - 1) = last := by simp [byteAt]
      by_cases h55 : last = 0x55#8
      · subst h55
        exact .inr (.inl ⟨pre, rfl, by rw [overflowTrim, if_pos rfl, if_pos hlast]⟩)
      · exact .inr (.inr ⟨by simpa using h55, by rw [overflowTrim, if_pos rfl, if_neg (by rwa [hlast])]⟩)
  · exact .inl (if_neg hfull)

/-- Bytes without a sync, none of which begins one with the bytes after them, change nothing that a pass puts out. -/
theorem decodeFrames_noise_append (o : LenOrder) {noise : List Byte} (h : findSync noise = none) (later : List Byte)
    (hb : noise.getLast? ≠ some 0x55#8 ∨ later.head? ≠ some 0xAA#8) :
    (decodeFrames o later).commands = (decodeFrames o (noise ++ later)).commands ∧
    (decodeFrames o later).bad = (decodeFrames o (noise ++ later)).bad := by
  cases later with
  | nil =>
    rw [List.append_nil, decodeFrames_none o h]
    exact ⟨rfl, rfl⟩
  | cons b t =>
    have hfind := findSync_noise h b t (by simpa using hb)
    cases hi : findSync (b :: t) with
    | none =>
      rw [hi] at hfind
      rw [decodeFrames_none o hi, decodeFrames_none o hfind]
      exact ⟨rfl, rfl⟩
    | some i =>
      rw [hi] at hfind
      have hdrop : (noise ++ b :: t).drop (i + noise.length) = (b :: t).drop i := by
        rw [Nat.add_comm, List.drop_length_add_append]
      rw [decodeFrames_drop o hi, decodeFrames_drop o hfind, hdrop]
      exact ⟨rfl, rfl⟩

/-- Settles O16: the bytes that the trim drops begin no sync with what is kept or comes later. -/
theorem trimChangesNoOutput : Obligations.TrimChangesNoOutput := by
  intro o cap buf later h
  rcases overflowTrim_cases cap buf with htrim | ⟨pre, rfl, htrim⟩ | ⟨hlast, htrim⟩ <;> rw [htrim]
  · exact ⟨rfl, rfl⟩
  · rw [List.append_assoc]
    exact decodeFrames_noise_append o (findSync_none_of_append h) _ (.inr (by simp))
  · exact decodeFrames_noise_append o h later (.inl hlast)

end Sys2Proof.Machine
end

section
/-! PROOFS. A stream in pieces (spec/41_decoder.md R100, R111): one pass after another, chunk by chunk. -/

namespace Sys2Proof.Machine

/-! ### Two passes one after the other (R111) -/

/-- What two passes put out together, with the buffer that the second leaves. -/
def PassResult.join (r q : PassResult) : PassResult := ⟨r.commands ++ q.commands, r.bad + q.bad, q.rest⟩

theorem PassResult.join_empty (buf : List Byte) (q : PassResult) : PassResult.join ⟨[], 0, buf⟩ q = q := by
  simp [join]

theorem PassResult.after_join (r q : PassResult) (v : Bool) (c : Command) :
    (r.join q).after v c = (r.after v c).join q := by
  cases v with
  | true => rfl
  | false => simp [after_false, join, Nat.add_right_comm]

/-- A pass over more bytes is the pass over the first of them, and then one over what that left and the others. -/
theorem decodeFrames_append (o : LenOrder) (a b : List Byte) :
    decodeFrames o (a ++ b) = (decodeFrames o a).join (decodeFrames o ((decodeFrames o a).rest ++ b)) := by
  induction a using pass_induction o with
  | hnone a h => rw [decodeFrames_none o h, PassResult.join_empty]
  | hdrop a i h _ ih =>
    have hi := findSync_bound h
    rw [decodeFrames_drop o h, ← ih, decodeFrames_drop o (findSync_append h b),
      List.drop_append_of_le_length (by omega)]
  | hwait a h hw => rw [decodeFrames_wait o h hw, PassResult.join_empty]
  | hframe a h hl ih =>
    rw [decodeFrames_frame_append o h hl, ih, PassResult.after_join, decodeFrames_frame o h hl, PassResult.after_rest]

theorem passes_cons (o : LenOrder) (buf c : List Byte) (cs : List (List Byte)) :
    passes o buf (c :: cs) = (decodeFrames o (buf ++ c)).join (passes o (decodeFrames o (buf ++ c)).rest cs) := rfl

/-- The generalisation that the induction needs: the buffer holds what earlier chunks left. -/
theorem passes_eq_decodeFrames (o : LenOrder) {buf : List Byte} (h : settled o buf) (chunks : List (List Byte)) :
    passes o buf chunks = decodeFrames o (buf ++ chunks.flatten) := by
  induction chunks generalizing buf with
  | nil => rw [List.flatten_nil, List.append_nil, settled_pass o h, passes]
  | cons c cs ih =>
    rw [passes_cons, ih (decodeFrames_rest_settled o _), List.flatten_cons, ← List.append_assoc, ← decodeFrames_append]

/-- Settles O15: by induction on the chunks, each pass joined to the next. -/
theorem chunkingDoesNotMatter : Obligations.ChunkingDoesNotMatter := fun o chunks =>
  passes_eq_decodeFrames o (settled_of_hunt rfl) chunks

end Sys2Proof.Machine
end

section
/-! PROOFS. The decode pass on the block (spec/41_decoder.md R101, R105, R106, R112, R116; spec/44_ports.md R170):
DECODE_PASS, one RX_PUSH, and a sequence of them. -/

namespace Sys2Proof.Machine

/-! ### RX_PUSH and RX_PUSH_SEQ as steps (R170, R81) -/

theorem exec_rxPush (b : Byte) (s : State) : exec (.rxPush b) s = .next ((pushByte s b).setResp .nothing) := rfl

theorem exec_rxPushSeq (bs : List Byte) (s : State) :
    exec (.rxPushSeq bs) s = .next ((pushBytes s bs).setResp .nothing) := rfl

/-! ### RX_PUSH into a full RXBUF (R112) -/

theorem settled_of_length_le_two (o : LenOrder) {buf : List Byte} (h : buf.length ≤ 2) : settled o buf := by
  rw [settled_iff]
  cases hi : findSync buf with
  | none => exact .inl rfl
  | some i =>
    have hbound := findSync_bound hi
    exact .inr ⟨congrArg some (by omega), .inl (by omega)⟩

theorem byteAt_eq_iff {s : List Byte} {i : Nat} (h : i < s.length) (b : Byte) : byteAt s i = b ↔ s[i]? = some b := by
  simp [byteAt, h]

theorem overflowTrim_full {buf : List Byte} (h : buf.length = 8201) :
    overflowTrim 8201 buf = if buf[8200]? = some 0x55#8 then [0x55#8] else [] := by
  rw [overflowTrim, if_pos h]
  exact if_congr (byteAt_eq_iff (by omega) _) rfl rfl

/-- Settles O17: after the trim at most two bytes stand in RXBUF, which are settled. -/
theorem pushIntoFullBufferTrims : Obligations.PushIntoFullBufferTrims := by
  refine ⟨fun s b h => ?_, fun o buf h hl => ?_⟩
  · have hbuf : overflowTrim 8201 s.rxbuf ++ [b] = if s.rxbuf[8200]? = some 0x55#8 then [0x55#8, b] else [b] := by
      rw [overflowTrim_full h]
      split_ifs <;> rfl
    have hlen : (overflowTrim 8201 s.rxbuf ++ [b]).length ≤ 2 := by
      rw [hbuf]
      split_ifs <;> simp
    rw [exec_rxPush, pushByte_eq, receivePass_settled _ (settled_of_length_le_two .le hlen), hbuf]
    rfl
  · by_contra hh
    have := settled_length_of_not_hunt h hh
    omega

/-! ### DECODE_PASS (R101) -/

theorem received_eq (s : State) (rest : List Byte) (c : Command) (r : Response) :
    received s rest c r = (deliver { s with rxbuf := rest, cnt := s.cnt.oneFrame } c).setResp r := by
  unfold received
  cases h : toEvent c with
  | ok e =>
    dsimp only
    split_ifs with hl
    · rw [deliver_queued h (by exact hl)]
      rfl
    · rw [deliver_dropped h (by exact Nat.not_lt.mp hl)]
      rfl
  | error e =>
    cases e with
    | invalidCommandType => rw [deliver_cmdTypeError h]; rfl
    | invalidPayload => rw [deliver_payloadError h]; rfl

theorem receivePass_oneCommand {s : State} {c : Command} {rest : List Byte}
    (h : decodeFrames .le s.rxbuf = ⟨[c], 0, rest⟩) :
    receivePass s = deliver { s with rxbuf := rest, cnt := s.cnt.oneFrame } c := by
  rw [receivePass_eq, h]
  simp [Counters.oneFrame]

theorem receivePass_oneBad {s : State} {rest : List Byte} (h : decodeFrames .le s.rxbuf = ⟨[], 1, rest⟩) :
    receivePass s = { s with rxbuf := rest, cnt := { s.cnt with framesBad := s.cnt.framesBad + 1#32 } } := by
  rw [receivePass_eq, h]
  simp

/-- Settles O18: the pass over RXBUF is empty, or the one frame (O10, O11) and then the empty pass over settled
bytes. -/
theorem decodePassConsumesHead : Obligations.DecodePassConsumesHead := by
  refine ⟨fun s h => ?_, fun s cmd rsv st p rest hp hbuf hrest => ?_, fun s f t rest hbuf hf hl hlen hbad hrest => ?_⟩
  · rw [exec_decodePass, receivePass_settled s h, settled_pass .le h]
    rfl
  · have hpass : decodeFrames .le s.rxbuf = ⟨[⟨[cmd], some st, p⟩], 0, rest⟩ := by
      rw [hbuf, goodFrameGivesCommand .le cmd rsv st p rest hp, settled_pass .le hrest]
    rw [exec_decodePass, receivePass_oneCommand hpass, hpass, received_eq]
  · have hpass : decodeFrames .le s.rxbuf = ⟨[], 1, rest⟩ := by
      rw [hbuf, corruptFrameDiscardedWhole .le f t rest hf hl hlen hbad, settled_pass .le hrest]
    rw [exec_decodePass, receivePass_oneBad hpass, hpass]
    rfl

/-! ### One RX_PUSH between passes (R116) -/

/-- A byte after bytes without a sync completes no frame: a sync that it ends is only two bytes long. -/
theorem decodeFrames_push_of_hunt (o : LenOrder) {buf : List Byte} (h : findSync buf = none) (b : Byte) :
    ∃ rest, decodeFrames o (buf ++ [b]) = ⟨[], 0, rest⟩ := by
  cases hi : findSync (buf ++ [b]) with
  | none => exact ⟨_, decodeFrames_none o hi⟩
  | some i =>
    have hend : ¬ i + 1 < buf.length := fun hlt => by
      obtain ⟨h0, h1⟩ := syncAt_of_findSync hi
      rw [List.getElem?_append_left (by omega)] at h0 h1
      exact findSync_eq_none_iff.mp h i ⟨h0, h1⟩
    have hshort : ((buf ++ [b]).drop i).length < 10 := by
      simp only [List.length_drop, List.length_append, List.length_singleton]
      omega
    exact ⟨_, (decodeFrames_drop o hi).trans (decodeFrames_wait o (findSync_drop hi) (.inl hshort))⟩

/-- A byte after an incomplete frame leaves it incomplete or is its last one. -/
theorem frameLenAt_push (o : LenOrder) {buf : List Byte} (hw : buf.length < 10 ∨ buf.length < frameLenAt o buf)
    (b : Byte) (hl : frameLenAt o (buf ++ [b]) ≤ (buf ++ [b]).length) :
    frameLenAt o (buf ++ [b]) = (buf ++ [b]).length := by
  have hge := frameLenAt_ge o (buf ++ [b])
  rw [List.length_append, List.length_singleton] at hl ⊢
  have happ := frameLenAt_append o (b := buf) (by omega) [b]
  omega

/-- Everything a pass can do after one more byte. -/
theorem decodeFrames_push_cases (o : LenOrder) {buf : List Byte} (h : settled o buf) (b : Byte) :
    ∃ rest, decodeFrames o (buf ++ [b]) = ⟨[], 0, rest⟩ ∨ decodeFrames o (buf ++ [b]) = ⟨[], 1, rest⟩ ∨
      ∃ c, decodeFrames o (buf ++ [b]) = ⟨[c], 0, rest⟩ := by
  rcases (settled_iff o buf).mp h with hnone | ⟨hsync, hw⟩
  · obtain ⟨rest, hrest⟩ := decodeFrames_push_of_hunt o hnone b
    exact ⟨rest, .inl hrest⟩
  · have hsync' := findSync_append hsync [b]
    by_cases hl : frameLenAt o (buf ++ [b]) ≤ (buf ++ [b]).length
    · have hwhole := decodeFrames_whole_append o hsync' (frameLenAt_push o hw b hl) []
      rw [List.append_nil, decodeFrames_none o (buf := []) rfl] at hwhole
      refine ⟨[], .inr ?_⟩
      cases hv : frameValid (buf ++ [b]) (buf ++ [b]).length with
      | true => exact .inr ⟨_, by rw [hwhole, hv, PassResult.after_true]⟩
      | false => exact .inl (by rw [hwhole, hv, PassResult.after_false])
    · exact ⟨_, .inl (decodeFrames_wait o hsync' (.inr (by omega)))⟩

/-- Settles O27: the pass after one byte puts out at most one Command or one corrupt frame, and delivery of one Command
does one of four things. -/
theorem pushByteOutcome : Obligations.PushByteOutcome := by
  intro s b h
  have hf := pushByte_frame s b
  refine ⟨_, exec_rxPush b s, receivePass_rxbuf _, rfl, { hf.txSide with }, { hf.rest with }, hf.held, ?_⟩
  rw [State.setResp_outq, State.setResp_cnt, pushByte_eq]
  obtain ⟨rest, hpass | hpass | ⟨c, hpass⟩⟩ := decodeFrames_push_cases .le (trim_settled 8201 h) b
  · rw [receivePass_noFrame hpass]
    exact .inl ⟨rfl, rfl⟩
  · rw [receivePass_oneBad hpass]
    exact .inr (.inl ⟨rfl, rfl⟩)
  · rw [receivePass_oneCommand hpass]
    refine .inr (.inr ?_)
    rcases deliver_cases { s with rxbuf := rest, cnt := s.cnt.oneFrame } c with
      ⟨e, he, hl, hd⟩ | ⟨e, -, hl, hd⟩ | ⟨-, hd⟩ | ⟨-, hd⟩ <;> rw [hd]
    · exact .inl ⟨e, toEvent_device he, hl, rfl, rfl⟩
    · exact .inr (.inl ⟨hl, rfl, rfl⟩)
    · exact .inr (.inr (.inl ⟨rfl, rfl⟩))
    · exact .inr (.inr (.inr ⟨rfl, rfl⟩))

/-! ### Pushed bytes as one pass (R100, R111) -/

/-- The state with the buffer that a pass leaves and its frames counted, before delivery. -/
def State.afterPass (s : State) (r : PassResult) : State :=
  (s.setRxbuf r.rest).setCnt ((s.cnt.addFramesOk r.commands.length).addFramesBad r.bad)

theorem receivePass_eq_afterPass (s : State) :
    receivePass s = (decodeFrames .le s.rxbuf).commands.foldl deliver (s.afterPass (decodeFrames .le s.rxbuf)) := rfl

/-- Delivery does not look at RXBUF and the two frame counters. -/
theorem deliver_afterPass (s : State) (r : PassResult) (c : Command) :
    deliver (s.afterPass r) c = (deliver s c).afterPass r := by
  rcases deliver_cases s c with ⟨e, he, hl, hd⟩ | ⟨e, he, hl, hd⟩ | ⟨he, hd⟩ | ⟨he, hd⟩ <;> rw [hd]
  · exact deliver_queued (s := s.afterPass r) he hl
  · exact deliver_dropped (s := s.afterPass r) he hl
  · exact deliver_cmdTypeError (s := s.afterPass r) he
  · exact deliver_payloadError (s := s.afterPass r) he

theorem deliverAll_afterPass (cs : List Command) (s : State) (r : PassResult) :
    cs.foldl deliver (s.afterPass r) = (cs.foldl deliver s).afterPass r := by
  induction cs generalizing s with
  | nil => rfl
  | cons c cs ih => simp only [List.foldl_cons, deliver_afterPass, ih]

theorem afterPass_join (s : State) (r q : PassResult) : s.afterPass (r.join q) = (s.afterPass r).afterPass q := by
  simp [State.afterPass, PassResult.join, State.setRxbuf, State.setCnt, Counters.addFramesOk, Counters.addFramesBad,
    BitVec.ofNat_add, add_assoc]

/-- A pass, and one more after other bytes have come, do what one pass over all the bytes does. -/
theorem receivePass_append (s : State) (bs : List Byte) :
    receivePass { receivePass s with rxbuf := (receivePass s).rxbuf ++ bs } =
      receivePass { s with rxbuf := s.rxbuf ++ bs } := by
  obtain ⟨r, hr⟩ : ∃ r, decodeFrames .le s.rxbuf = r := ⟨_, rfl⟩
  obtain ⟨q, hq⟩ : ∃ q, decodeFrames .le (r.rest ++ bs) = q := ⟨_, rfl⟩
  have hall : decodeFrames .le (s.rxbuf ++ bs) = r.join q := by rw [decodeFrames_append, hr, hq]
  calc
    receivePass { receivePass s with rxbuf := (receivePass s).rxbuf ++ bs }
    _ = q.commands.foldl deliver ((receivePass s).afterPass q) := by
      rw [receivePass_eq_afterPass, receivePass_rxbuf, hr, hq]
      rfl
    _ = (r.join q).commands.foldl deliver (s.afterPass (r.join q)) := by
      rw [receivePass_eq_afterPass, hr, ← deliverAll_afterPass, ← afterPass_join, ← List.foldl_append]
      rfl
    _ = receivePass { s with rxbuf := s.rxbuf ++ bs } := by
      rw [receivePass_eq_afterPass, hall]
      rfl

/-- Bytes pushed one by one, with no trim between, do what one pass over all of them does. -/
theorem pushBytes_eq_receivePass (bs : List Byte) {s : State} (h : settled .le s.rxbuf)
    (hl : s.rxbuf.length + bs.length ≤ 8201) : pushBytes s bs = receivePass { s with rxbuf := s.rxbuf ++ bs } := by
  induction bs generalizing s with
  | nil =>
    rw [List.append_nil, pushBytes_nil]
    exact (receivePass_settled s h).symm
  | cons b bs ih =>
    rw [List.length_cons] at hl
    have hpush : pushByte s b = receivePass { s with rxbuf := s.rxbuf ++ [b] } := by
      rw [pushByte_eq, overflowTrim, if_neg (by omega)]
    have hrest := receivePass_rxbuf { s with rxbuf := s.rxbuf ++ [b] }
    have hlen := decodeFrames_rest_length .le (s.rxbuf ++ [b])
    rw [List.length_append, List.length_singleton] at hlen
    rw [pushBytes_cons, hpush, ih (by rw [hrest]; exact decodeFrames_rest_settled _ _)
      (by rw [hrest]; dsimp only; omega), receivePass_append]
    simp

/-- Settles O29: the two answers differ only in what is given back. -/
theorem pushSequenceIsOnePass : Obligations.PushSequenceIsOnePass := by
  intro s bs h hl
  refine ⟨_, exec_decodePass _, ?_⟩
  rw [exec_rxPushSeq, pushBytes_eq_receivePass bs h hl]
  rfl

end Sys2Proof.Machine
end

section
/-! PROOFS. The encoder (spec/42_encoder.md): its frame byte by byte, and the decode pass over that frame. -/

namespace Sys2Proof.Machine

/-! ### What the encoder answers (R130, R131) -/

/-- The status plays no part (R132). -/
theorem encodeFrame_one (o : LenOrder) (b : Byte) (st : Option (BitVec 3)) (p : List Byte) :
    encodeFrame o ⟨[b], st, p⟩ = .ok (wireFrame o b Reserved.zero 0#3 p) := rfl

theorem encodeFrame_error (o : LenOrder) {c : Command} (h : c.cmdType.length ≠ 1) :
    encodeFrame o c = .error .invalidCommandType := by
  rcases encodeFrame_cases o c with ⟨b, hb, -⟩ | ⟨-, he⟩
  · simp [hb] at h
  · exact he

theorem exec_encode_ok {c : Command} {f : List Byte} (h : encodeFrame .le c = .ok f) (s : State) :
    exec (.encode c) s = .next (s.setResp (.frame f)) := by
  simp only [exec, execEncode, Config.lenOrder, h]

theorem exec_encode_error {c : Command} {e : MapError} (h : encodeFrame .le c = .error e) (s : State) :
    exec (.encode c) s = .next (s.setResp (.error e)) := by
  simp only [exec, execEncode, Config.lenOrder, h]
  rfl

/-- Settles O19: the two bytes at offsets 7 and 8 are the length low byte first, since the mask is the identity up to
8191 (R133). -/
theorem encoderLayout : Obligations.EncoderLayout := by
  refine ⟨fun b st p s hp => ?_, fun cmd st p s hcmd => exec_encode_error (encodeFrame_error .le hcmd) s⟩
  obtain ⟨lo, hi, hread, hframe⟩ := wireFrame_shape .le b Reserved.zero 0#3 p
  have hnum : hi.toNat * 256 + lo.toNat = p.length % 8192 := by
    rw [← lenFlags_toNat, hread, lenFlagsOf_zero_toNat]
  refine ⟨lo, hi, by omega, by omega, ?_⟩
  rw [exec_encode_ok (encodeFrame_one .le b st p), hframe]
  rfl

/-- Settles O20: the encoder's frame is one the decoder accepts (`goodFrameGivesCommand`), with nothing after it. -/
theorem codecRoundTrip : Obligations.CodecRoundTrip := by
  intro o b st p hp
  have hpass := goodFrameGivesCommand o b Reserved.zero 0#3 p [] hp
  rw [List.append_nil, decodeFrames_none o (buf := []) rfl] at hpass
  exact ⟨_, encodeFrame_one o b st p, wireFrame_length o b Reserved.zero 0#3 p, hpass⟩

end Sys2Proof.Machine
end

section
/-! PROOFS. The mapper (spec/43_mapper.md): what the validator answers for an Error status, for each of the two commands
and for every other cmd_type, TO_EVENT and TO_COMMAND as steps, and the two requests on both sides of the block. -/

namespace Sys2Proof.Machine

/-! ### TO_EVENT as a step (R140) -/

theorem exec_toEvent_ok {c : Command} {e : Event} (h : toEvent c = .ok e) (s : State) :
    exec (.toEvent c) s = .next { s with resp := .mapped e } := by
  refine (execToEvent_eq c s).trans ?_
  rw [h]

theorem exec_toEvent_error {c : Command} {e : MapError} (h : toEvent c = .error e) (s : State) :
    exec (.toEvent c) s = .next { s with resp := .error e } := by
  refine (execToEvent_eq c s).trans ?_
  rw [h]

/-! ### The 32-bit fields and the flag byte (R148, R149) -/

/-- Settles O26: these are the payloads of the two device messages, and a word is read back from its own little-endian
bytes. -/
theorem floatFieldsBitForBit : Obligations.FloatFieldsBitForBit := by
  intro x y f s
  refine ⟨exec_toEvent_ok (toEvent_positionReached x y) s, ?_⟩
  rw [List.append_assoc]
  exact exec_toEvent_ok (toEvent_getPositionResponse x y f) s

/-! ### The validator, by status and cmd_type (R143 to R146) -/

theorem normStatus_eq_error_iff : ∀ st : BitVec 3, normStatus st = .error ↔ st = 3#3 := by decide

theorem normStatus_eq_ok_iff : ∀ st : BitVec 3, normStatus st = .ok ↔ st = 1#3 := by decide

theorem normStatus_eq_okWithData_iff : ∀ st : BitVec 3, normStatus st = .okWithData ↔ st = 2#3 := by decide

/-- A status of Error comes before the cmd_type (R143). -/
theorem toEvent_errorStatus (cmd p : List Byte) :
    toEvent ⟨cmd, some 3#3, p⟩ =
      if p.length = 1 then .ok (.errorResponse (normCause (byteAt p 0))) else .error .invalidPayload := rfl

/-- Command 0x91 (R144). -/
theorem toEvent_ninetyOne {st : BitVec 3} (h : st ≠ 3#3) (p : List Byte) :
    toEvent ⟨[0x91#8], some st, p⟩ =
      if st = 1#3 then if p.length = 0 then .ok .setPositionAck else .error .invalidPayload
      else if st = 2#3 then
        if p.length = 8 then .ok (.positionReached (leU32 p 0) (leU32 p 4)) else .error .invalidPayload
      else .error .invalidPayload := by
  simp only [toEvent, validate, normStatus_eq_error_iff, normStatus_eq_ok_iff, normStatus_eq_okWithData_iff, if_neg h,
    if_true]

/-- Command 0x93 (R145). -/
theorem toEvent_ninetyThree {st : BitVec 3} (h : st ≠ 3#3) (p : List Byte) :
    toEvent ⟨[0x93#8], some st, p⟩ =
      if st = 2#3 ∧ p.length = 9 then .ok (.getPositionResponse (leU32 p 0) (leU32 p 4) (byteAt p 8))
      else .error .invalidPayload := by
  have hcmd : ¬ [0x93#8] = [0x91#8] := by decide
  simp only [toEvent, validate, normStatus_eq_error_iff, normStatus_eq_okWithData_iff, if_neg h, if_neg hcmd, if_true]

/-- Any other cmd_type (R146). -/
theorem toEvent_otherCommand {cmd : List Byte} {st : BitVec 3} (h91 : cmd ≠ [0x91#8]) (h93 : cmd ≠ [0x93#8])
    (h : st ≠ 3#3) (p : List Byte) : toEvent ⟨cmd, some st, p⟩ = .error .invalidCommandType := by
  simp only [toEvent, validate, normStatus_eq_error_iff, if_neg h, if_neg h91, if_neg h93]

/-! ### A request on the receive side (R147) -/

/-- The frame of a request holds a Command that the validator rejects by its cmd_type. -/
theorem encode_request {i : Instr} (h : i = .getPositionRequest ∨ ∃ x y, i = .setPositionRequest x y) :
    ∃ b p, encode i = wireFrame .le b Reserved.zero 0#3 p ∧ p.length ≤ 8191 ∧
      toEvent ⟨[b], some 0#3, p⟩ = .error .invalidCommandType := by
  rcases h with rfl | ⟨x, y, rfl⟩
  · exact ⟨0x33#8, [], rfl, Nat.zero_le _, toEvent_otherCommand (by decide) (by decide) (by decide) _⟩
  · exact ⟨0x31#8, _, rfl, by simp, toEvent_otherCommand (by decide) (by decide) (by decide) _⟩

/-- Settles O46: the frame is received as a good one, and delivery counts its Command's mapping error. -/
theorem requestFrameRejectedOnReceive : Obligations.RequestFrameRejectedOnReceive := by
  intro i s hi hhunt
  obtain ⟨b, p, henc, hp, hmap⟩ := encode_request hi
  rw [exec_rxPushSeq, henc, pushBytes_wireFrame_of_hunt ((hunt_iff _ _).mp hhunt) b _ _ hp, deliver_cmdTypeError hmap]
  rfl

/-! ### TO_EVENT, case by case -/

/-- Settles O21: the Error status is looked at before the cmd_type, an absent status before both. -/
theorem errorStatusBeatsCommand : Obligations.ErrorStatusBeatsCommand := by
  intro cmd p s
  refine ⟨exec_toEvent_error rfl s, fun b => exec_toEvent_ok (toEvent_errorStatus cmd [b]) s, fun hl => ?_⟩
  exact exec_toEvent_error ((toEvent_errorStatus cmd p).trans (if_neg hl)) s

/-- Settles O22: the branches of command 0x91. -/
theorem commandNinetyOne : Obligations.CommandNinetyOne := by
  intro p s
  refine ⟨exec_toEvent_ok rfl s, fun hl => exec_toEvent_error ?_ s, fun x0 x1 x2 x3 y0 y1 y2 y3 => exec_toEvent_ok rfl s,
    fun hl => exec_toEvent_error ?_ s, fun st h1 h2 h3 => exec_toEvent_error ?_ s⟩
  · rw [toEvent_ninetyOne (by decide), if_pos rfl, if_neg hl]
  · rw [toEvent_ninetyOne (by decide), if_neg (by decide), if_pos rfl, if_neg hl]
  · rw [toEvent_ninetyOne h3, if_neg h1, if_neg h2]

/-- Settles O23: of the statuses but Error only OkWithData with 9 bytes passes. -/
theorem commandNinetyThree : Obligations.CommandNinetyThree := by
  intro p s
  refine ⟨fun x0 x1 x2 x3 y0 y1 y2 y3 f => exec_toEvent_ok rfl s, fun hl => exec_toEvent_error ?_ s,
    fun st h2 h3 => exec_toEvent_error ?_ s⟩
  · rw [toEvent_ninetyThree (by decide), if_neg fun h => hl h.2]
  · rw [toEvent_ninetyThree h3, if_neg fun h => h2 h.1]

/-- Settles O24: such a cmd_type falls through the tests of the validator. -/
theorem otherCommandRejected : Obligations.OtherCommandRejected := fun _ p _ s h91 h93 h =>
  exec_toEvent_error (toEvent_otherCommand h91 h93 h p) s

/-! ### TO_COMMAND and the request messages (R151 to R154) -/

theorem exec_toCommand_ok {r : PortRecord} {c : Command} (h : recordCommand r = .ok c) (s : State) :
    exec (.toCommand r) s = .next { s with resp := .command c } := by
  simp only [exec, execToCommand, h]
  rfl

theorem exec_toCommand_error {r : PortRecord} {e : MapError} (h : recordCommand r = .error e) (s : State) :
    exec (.toCommand r) s = .next { s with resp := .error e } := by
  simp only [exec, execToCommand, h]
  rfl

/-- Settles O25: the request mapper's three branches on the kind (`recordCommand_eq`). -/
theorem requestMapper : Obligations.RequestMapper := by
  intro r s
  have hmap := recordCommand_eq r
  refine ⟨fun h5 => exec_toCommand_ok ?_ s, fun h6 => exec_toCommand_ok ?_ s, fun h5 h6 => exec_toCommand_error ?_ s⟩
  · rw [hmap, if_pos h5]
  · rw [hmap, h6, if_neg (by decide), if_pos rfl]
  · rw [hmap, if_neg h5, if_neg h6]

/-- Settles O44: each request message submits its Command, which a TXQ with room takes at its tail. -/
theorem requestMessageQueues : Obligations.RequestMessageQueues := fun _ _ _ hl =>
  ⟨congrArg Host.Outcome.next (submit_ok hl _ _), congrArg Host.Outcome.next (submit_ok hl _ _)⟩

end Sys2Proof.Machine
end

section
/-! PROOFS. The ports (spec/44_ports.md): a whole frame from HUNT (R170), OUT_POP (R171), the submissions (R172, R173),
TX_STEP (R174), STAT_READ (R175), and what the machine's step runs (R177, R179; log entries 1, 4, 6 and 18). -/

namespace Sys2Proof.Machine

/-! ### A frame received from HUNT (R170) -/

/-- Settles O30: the frame's Command is delivered (`pushBytes_wireFrame_of_hunt`), which is what receiving
it means (`received_eq`). -/
theorem frameFromHuntIsReceived : Obligations.FrameFromHuntIsReceived := by
  intro s cmd rsv st p hhunt hp
  rw [exec_rxPushSeq, pushBytes_wireFrame_of_hunt ((hunt_iff _ _).mp hhunt) cmd rsv st hp, received_eq]

/-! ### The transactions of the queues (R171 to R174) -/

/-- Settles O31: an empty OUTQ has no head and is its own tail. -/
theorem outPopTakesHead : Obligations.OutPopTakesHead := by
  refine fun s => ⟨fun hempty => ?_, fun e rest hq => ?_⟩
  · have hsame : s.setOutq [] = s := by
      rw [← hempty]
      rfl
    rw [exec_outPop, hempty, List.tail_nil, hsame]
    rfl
  · rw [exec_outPop, hq]
    rfl

/-- Settles O32: the submission always answers OK with the record's Command, which a TXQ with room takes. -/
theorem submitCommandQueues : Obligations.SubmitCommandQueues := fun _ _ _ _ _ hl =>
  congrArg Host.Outcome.next (submit_ok hl _ _)

theorem exec_txSubmitReq (r : PortRecord) (s : State) :
    exec (.txSubmitReq r) s = .next (submit s (.txSubmitReq r) (recordCommand r)) := rfl

/-- Settles O33: the request mapper's three branches on the kind (`recordCommand_eq`), with room in TXQ. -/
theorem submitRequestQueues : Obligations.SubmitRequestQueues := by
  intro r s hl
  rw [exec_txSubmitReq, recordCommand_eq]
  refine ⟨fun h5 => ?_, fun h6 => ?_, fun h5 h6 => ?_⟩
  · rw [if_pos h5, submit_ok hl]
  · rw [if_neg (by rw [h6]; decide), if_pos h6, submit_ok hl]
  · rw [if_neg h5, if_neg h6, submit_error hl]

/-- Settles O37: the encoder takes a cmd_type of one byte and no other (R131). -/
theorem txStepSendsHead : Obligations.TxStepSendsHead := fun _ _ _ hq =>
  ⟨fun _ hb => congrArg Host.Outcome.next (txEngine_sent hq hb),
    fun hc => congrArg Host.Outcome.next (txEngine_rejected hq hc)⟩

/-! ### STAT_READ (R175) -/

/-- Settles O39: each number selects its branch of the table of counters, and 7 none of them. -/
theorem statReadGivesCounter : Obligations.StatReadGivesCounter := fun _ =>
  ⟨rfl, rfl, rfl, rfl, rfl, rfl, rfl, rfl⟩

/-! ### What a step runs (R172, R177, R179) -/

theorem step_of_run {s t : State} {i : Instr} (h : choose s = .run i t) : step s = exec i t := by
  simp only [step, h]

theorem step_of_bad {s : State} {e : DecodeError} (h : choose s = .bad e) : step s = .refused (refusalOf e) := by
  simp only [step, h]

/-- A held submission enters as soon as TXQ has room. -/
theorem choose_held {s : State} {j : Instr} (hh : s.held = some j) (hl : s.txq.length < 10) :
    choose s = .run j (s.setHeld none) := by
  simp only [choose, hh, (State.txqHasRoom_iff s).mpr hl, if_true]

/-- Where no held submission can enter, the offer decides. -/
theorem choose_eq_chooseOffered {s : State} (h : s.held = none ∨ 10 ≤ s.txq.length) : choose s = chooseOffered s := by
  cases hh : s.held with
  | none => simp only [choose, hh]
  | some j =>
    have hfull : 10 ≤ s.txq.length := h.resolve_left (by simp [hh])
    have hroom : ¬ s.txqHasRoom = true := by
      rw [State.txqHasRoom_iff]
      omega
    simp only [choose, hh, if_neg hroom]

theorem decode_nil_ne_ok (i : Instr) (rest : List Byte) : decode [] ≠ .ok i rest := by
  simp [decode]

theorem chooseOffered_ok {s : State} {i : Instr} {rest : List Byte} (hd : decode s.schedule = .ok i rest) :
    chooseOffered s = if s.held.isSome && isSubmission i then .run .txStep s else .run i (s.setSchedule rest) := by
  cases hs : s.schedule with
  | nil => exact absurd (hs ▸ hd) (decode_nil_ne_ok i rest)
  | cons b bs =>
    rw [hs] at hd
    simp only [chooseOffered, hs, hd]

theorem chooseOffered_bad {s : State} {e : DecodeError} (hne : s.schedule ≠ []) (hd : decode s.schedule = .bad e) :
    chooseOffered s = chooseRefused s e := by
  cases hs : s.schedule with
  | nil => exact absurd hs hne
  | cons b bs =>
    rw [hs] at hd
    simp only [chooseOffered, hs, hd]

/-- While a submission is held with no room for it, the TX engine steps before another submission, and every other item
runs. -/
theorem step_held_full {s : State} {i j : Instr} {rest : List Byte} (hd : decode s.schedule = .ok i rest)
    (hh : s.held = some j) (hl : 10 ≤ s.txq.length) :
    step s = if isSubmission i then exec .txStep s else exec i (s.setSchedule rest) := by
  have hchoose := (choose_eq_chooseOffered (.inr hl)).trans (chooseOffered_ok hd)
  rw [hh, Option.isSome_some, Bool.true_and] at hchoose
  split_ifs at hchoose ⊢ with hsub
  · exact step_of_run hchoose
  · exact step_of_run hchoose

/-- Bytes that are no item, but begin with a whole frame. -/
theorem step_frame {s : State} {e : DecodeError} {f rest : List Byte} (hoffer : choose s = chooseRefused s e)
    (hf : splitFrame s.schedule = some (f, rest)) : step s = exec (.rxPushSeq f) (s.setSchedule rest) :=
  step_of_run (by rw [hoffer, chooseRefused, hf])

/-- Bytes that are neither an item nor begin with a whole frame. -/
theorem step_refused {s : State} {e : DecodeError} (hoffer : choose s = chooseRefused s e)
    (hf : splitFrame s.schedule = none) : step s = .refused (refusalOf e) :=
  step_of_bad (by rw [hoffer, chooseRefused, hf])

/-- Settles O55: the branches of `choose`. -/
theorem stepRunsOfferedItem : Obligations.StepRunsOfferedItem := by
  refine fun s => ⟨fun i rest hd hh => step_offered hh hd, fun i j rest hd hh hl => step_held_full hd hh hl,
    fun j hh hl => step_of_run (choose_held hh hl), fun e hne hd hblocked => ?_⟩
  have hoffer := (choose_eq_chooseOffered hblocked).trans (chooseOffered_bad hne hd)
  refine ⟨fun f rest hl hsync hlen hs => ?_, fun hno => ?_⟩
  · exact step_frame hoffer (by rw [hs, splitFrame_append f rest hl hsync hlen])
  · refine step_refused hoffer (Option.eq_none_iff_forall_ne_some.mpr fun ⟨f, rest⟩ hf => ?_)
    obtain ⟨hs, hlen, hl, hsync⟩ := splitFrame_some hf
    exact hno f rest hl hsync hlen.symm hs

/-- Settles O56: the TX engine does nothing with TXQ empty (log entry 5). -/
theorem quiescentBlockStays : Obligations.QuiescentBlockStays := by
  rintro s ⟨hq, hs, hh⟩
  rw [step_idle hh hs, txEngine, hq]

end Sys2Proof.Machine
end

section
/-! PROOFS. Exceptions, of which the block has none (spec/60_exceptions.md R200, R203): a transaction that is not enabled
leaves the block alone, every transaction answers, and a step is refused only over bytes that are no item (log entries 1, 4,
5 and 18). -/

namespace Sys2Proof.Machine

/-! ### Transactions that are not enabled (R172, R173, R174, R179) -/

theorem State.txqHasRoom_eq_false_iff (s : State) : s.txqHasRoom = false ↔ 10 ≤ s.txq.length := by
  rw [← Bool.not_eq_true, State.txqHasRoom_iff, Nat.not_lt]

/-- Only a submission can find TXQ full, and only TX_STEP can find it empty. -/
theorem enabled_eq_false_iff (i : Instr) (s : State) :
    enabled i s = false ↔ isSubmission i = true ∧ 10 ≤ s.txq.length ∨ i = .txStep ∧ s.txq = [] := by
  rw [← State.txqHasRoom_eq_false_iff]
  cases i <;> simp [enabled, isSubmission]

/-- A submission to a full TXQ is held, whatever it would have answered (log entry 4). -/
theorem exec_submission_full {i : Instr} {s : State} (hi : isSubmission i = true) (hfull : 10 ≤ s.txq.length) :
    exec i s = .next { s with held := some i, resp := .held } := by
  obtain ⟨r, hs, -⟩ := exec_submission hi
  rw [hs, submit_full hfull]

/-- With TXQ empty the TX engine does nothing (log entry 5). -/
theorem exec_txStep_empty {s : State} (hq : s.txq = []) : exec .txStep s = .next s := by
  simp only [exec, execTxStep, txEngine, hq]

/-- Settles O35: a submission to a full TXQ is held, and TX_STEP with TXQ empty does nothing. -/
theorem disabledTransactionChangesNothing : Obligations.DisabledTransactionChangesNothing := by
  intro i s hdisabled
  obtain ⟨hi, hfull⟩ | ⟨rfl, hempty⟩ := (enabled_eq_false_iff i s).mp hdisabled
  · exact ⟨_, exec_submission_full hi hfull, rfl, rfl, rfl, rfl, rfl, rfl⟩
  · exact ⟨s, exec_txStep_empty hempty, rfl, rfl, rfl, rfl, rfl, rfl⟩

/-! ### Every transaction answers (R200) -/

/-- Every error is a value: none of the five shapes of an instruction stops. -/
theorem exec_answers (i : Instr) (s : State) : ∃ t, exec i s = .next t := by
  rcases instr_shapes i with hi | hi | hi | rfl | rfl
  · rcases exec_receive_cases hi with ⟨f, hf⟩ | rfl | rfl
    · exact ⟨_, hf s⟩
    · exact ⟨_, exec_decodePass s⟩
    · exact ⟨_, exec_outPop s⟩
  · obtain ⟨r, hs, -⟩ := exec_submission hi
    exact ⟨_, hs s⟩
  · obtain ⟨r, hr⟩ := exec_pure hi s
    exact ⟨_, hr⟩
  · exact ⟨_, rfl⟩
  · exact ⟨_, rfl⟩

theorem exec_ne_refused (i : Instr) (s : State) (r : Refusal) : exec i s ≠ .refused r := by
  obtain ⟨t, ht⟩ := exec_answers i s
  simp [ht]

theorem step_run_ne_refused {s t : State} {i : Instr} (h : choose s = .run i t) (r : Refusal) : step s ≠ .refused r :=
  step_of_run h ▸ exec_ne_refused i t r

/-- Settles O57: every instruction answers (`exec_answers`), so a refusal comes from the one choice of a step that runs
none. -/
theorem everyTransactionAnswers : Obligations.EveryTransactionAnswers := by
  refine ⟨exec_answers, fun s r hstep => ?_⟩
  rcases choose_cases s with ⟨i, -, hc⟩ | hc | ⟨i, rest, -, hc⟩ | ⟨e, f, rest, -, -, hc⟩ | ⟨e, hne, hd, -, hc⟩
  · exact absurd hstep (step_run_ne_refused hc r)
  · exact absurd hstep (step_run_ne_refused hc r)
  · exact absurd hstep (step_run_ne_refused hc r)
  · exact absurd hstep (step_run_ne_refused hc r)
  · exact ⟨hne, e, hd, Host.Outcome.refused.inj (hstep.symm.trans (step_of_bad hc))⟩

end Sys2Proof.Machine
end

section
/-! PROOFS. RESET and the hazards (spec/70_reset_and_hazards.md): RESET (R220), bytes that wait behind a header (R226,
R114), and a submission that waits for a TX_STEP (R228; log entries 1 and 4). -/

namespace Sys2Proof.Machine

/-! ### RESET (R220) -/

/-- Settles O40: the four parts that R220 names are cleared (`clear_eq`), and nothing is given back. -/
theorem resetClearsBlock : Obligations.ResetClearsBlock := fun s =>
  congrArg (fun t : State => Host.Outcome.next (t.setResp .nothing)) (clear_eq s)

/-! ### Bytes that wait behind a header (R226, R114) -/

/-- The nine header bytes alone name the sync and the length of the frame, whatever comes after them. -/
theorem header_append_facts (o : LenOrder) (cmd : Byte) (rsv : Reserved) (st : BitVec 3) {p : List Byte}
    (hp : p.length ≤ 8191) (later : List Byte) :
    ((wireFrame o cmd rsv st p).take 9).length = 9 ∧
    findSync ((wireFrame o cmd rsv st p).take 9 ++ later) = some 0 ∧
    frameLenAt o ((wireFrame o cmd rsv st p).take 9 ++ later) = 10 + p.length := by
  obtain ⟨b7, b8, hl, hshape⟩ := wireFrame_shape o cmd rsv st p
  have hplen : payloadLen (lenFlags o b7 b8) = p.length := by rw [hl, payloadLen_lenFlagsOf _ _ hp]
  have hheader : (wireFrame o cmd rsv st p).take 9 =
      [0x55#8, 0xAA#8, cmd, rsv.b3, rsv.b4, rsv.b5, rsv.b6, b7, b8] := by
    rw [hshape]
    rfl
  rw [hheader]
  refine ⟨rfl, findSync_sync _, ?_⟩
  rw [frameLenAt_append o le_rfl]
  exact congrArg (10 + ·) hplen

/-- Settles O47: the frame that the header announces is longer than what has come, so the one pass that the pushes amount
to (`pushBytes_eq_receivePass`) finds a settled buffer. -/
theorem headOfLineWait : Obligations.HeadOfLineWait := by
  intro s cmd rsv st p later hempty hp hlater
  obtain ⟨hnine, hsync, hlen⟩ := header_append_facts .le cmd rsv st hp later
  have hall : ((wireFrame .le cmd rsv st p).take 9 ++ later).length = 9 + later.length := by
    rw [List.length_append, hnine]
  have hwaits : settled .le ((wireFrame .le cmd rsv st p).take 9 ++ later) :=
    (settled_iff _ _).mpr (.inr ⟨hsync, .inr (by omega)⟩)
  have hstart : settled .le s.rxbuf := settled_of_hunt (by rw [hempty]; rfl)
  have hfits : s.rxbuf.length + ((wireFrame .le cmd rsv st p).take 9 ++ later).length ≤ 8201 := by
    rw [hempty, List.length_nil, hall]
    omega
  rw [exec_rxPushSeq, pushBytes_eq_receivePass _ hstart hfits, hempty, List.nil_append, receivePass_settled _ hwaits]
  rfl

/-! ### A submission waits for a TX_STEP (R172, R228) -/

/-- Settles O34: a submission answers through `submit`, which holds it while TXQ is full (`exec_submission_full`). -/
theorem fullQueueHoldsSubmission : Obligations.FullQueueHoldsSubmission := fun _ _ hi hfull =>
  exec_submission_full hi hfull

/-- What TX_STEP appends is the frame of TXQ's head, and nothing for a head the encoder rejects. -/
theorem txEngine_txout {s : State} {c : Command} {rest : List Command} (hq : s.txq = c :: rest) :
    (txEngine s).txout = s.txout ++ sentBytes c := by
  have hdrained := congrArg (fun t : State => t.txout) (drained_txEngine hq)
  simpa [drained, ← List.append_assoc] using hdrained

theorem txEngine_held (s : State) : (txEngine s).held = s.held := by
  rcases txEngine_cases s with ⟨-, h⟩ | ⟨_, _, _, -, -, h⟩ | ⟨_, _, -, -, h⟩ <;> rw [h]

theorem txEngine_schedule (s : State) : (txEngine s).schedule = s.schedule := by
  rcases txEngine_cases s with ⟨-, h⟩ | ⟨_, _, _, -, -, h⟩ | ⟨_, _, -, -, h⟩ <;> rw [h]

/-- A submission offered to a full TXQ is taken off the schedule and held. -/
theorem step_submission_full {s : State} {i : Instr} {rest : List Byte} (hh : s.held = none)
    (hd : decode s.schedule = .ok i rest) (hi : isSubmission i = true) (hfull : 10 ≤ s.txq.length) :
    step s = .next { s with held := some i, resp := .held, schedule := rest } :=
  (step_offered hh hd).trans (exec_submission_full (s := s.setSchedule rest) hi hfull)

/-- An offered TX_STEP goes on while a submission is held. -/
theorem step_txStep_held_full {s : State} {j : Instr} {rest : List Byte} (hd : decode s.schedule = .ok .txStep rest)
    (hh : s.held = some j) (hfull : 10 ≤ s.txq.length) : step s = .next (txEngine (s.setSchedule rest)) :=
  step_held_full hd hh hfull

/-- A held Command enters as soon as TXQ has room. -/
theorem step_lifts_command {s : State} {r : CommandRecord} (hh : s.held = some (.txSubmitCmd r))
    (hroom : s.txq.length < 10) :
    step s = .next { s with txq := s.txq ++ [r.command], resp := .accepted, held := none } :=
  (step_of_run (choose_held hh hroom)).trans
    (congrArg Host.Outcome.next (submit_ok (s := s.setHeld none) hroom (.txSubmitCmd r) r.command))

/-- Settles O36: the Command is held, the offered TX_STEP sends TXQ's head, and the Command enters the room this made. -/
theorem heldSubmissionIsLifted : Obligations.HeldSubmissionIsLifted := by
  intro s r d ds rest hnone hq hfull hw hs
  have hsubmit : decode s.schedule = .ok (.txSubmitCmd r) (encode .txStep ++ rest) := by
    rw [hs]
    exact decodeOfEncode (.txSubmitCmd r) _ hw
  have hheld := step_submission_full hnone hsubmit rfl hfull.ge
  have hsent := step_txStep_held_full (s := { s with
    held := some (.txSubmitCmd r), resp := .held, schedule := encode .txStep ++ rest })
    (decodeOfEncode .txStep rest rfl) rfl hfull.ge
  generalize hafter : txEngine _ = u at hsent
  have htxq : u.txq = ds := by rw [← hafter, txEngine_txq]; exact congrArg List.tail hq
  have htxout : u.txout = s.txout ++ sentBytes d := by rw [← hafter]; exact txEngine_txout hq
  have hwaiting : u.held = some (.txSubmitCmd r) := by rw [← hafter, txEngine_held]; rfl
  have hschedule : u.schedule = rest := by rw [← hafter, txEngine_schedule]; rfl
  have hroom : u.txq.length < 10 := by
    rw [hq, List.length_cons] at hfull
    rw [htxq]
    omega
  exact ⟨_, u, _, hheld, hsent, step_lifts_command hwaiting hroom, rfl, rfl, htxq, htxout,
    congrArg (· ++ [r.command]) htxq, rfl, rfl, rfl, hschedule⟩

end Sys2Proof.Machine
end
